-- ==== Sys2Proof/Word.lean ====
section
/-! DEFINITION. The value types of the core: bytes, 16-bit words, nibbles, 12-bit addresses, register numbers
(spec 00_scope.md §4 and §5, 30_encoding.md R42). Every value is unsigned (R58). -/

namespace Sys2Proof

/-- An 8-bit value: a memory byte, a general register, a timer (R8, R9, R15, R16). -/
abbrev Byte := BitVec 8

/-- A 16-bit value: an instruction word, I, pc, a stack slot (R11, R12, R13, R41). -/
abbrev Word := BitVec 16

/-- A 4-bit instruction field: the opcode nibble, X, Y or N (R42). -/
abbrev Nibble := BitVec 4

/-- The 12-bit instruction field NNN (R42). -/
abbrev Addr := BitVec 12

/-- The number of a general register V0 to VF (R9). -/
abbrev RegIx := Fin 16

/-- VF, register 15, which is also the flag output (R10). -/
abbrev vF : RegIx := 15

end Sys2Proof
end

