-- ==== Sys2Proof/Syntax.lean ====
section
/-! DEFINITION. The instructions: one constructor per row of spec/opcode_table.json, in the table's order
(30_encoding.md R44). Fields are unsigned and unscaled (R43). -/

namespace Sys2Proof

/-- One constructor per row of the opcode table. `x` and `y` are register numbers, `nn` an 8-bit immediate,
`n` a 4-bit count, `nnn` a 12-bit address (R42, R43). -/
inductive Instr where
  | cls
  | ret
  | sys (nnn : Addr)
  | jp (nnn : Addr)
  | call (nnn : Addr)
  | seImm (x : RegIx) (nn : Byte)
  | sneImm (x : RegIx) (nn : Byte)
  | seReg (x y : RegIx)
  | ldImm (x : RegIx) (nn : Byte)
  | addImm (x : RegIx) (nn : Byte)
  | ldReg (x y : RegIx)
  | orReg (x y : RegIx)
  | andReg (x y : RegIx)
  | xorReg (x y : RegIx)
  | addReg (x y : RegIx)
  | subReg (x y : RegIx)
  | shrReg (x y : RegIx)
  | subnReg (x y : RegIx)
  | shlReg (x y : RegIx)
  | sneReg (x y : RegIx)
  | ldI (nnn : Addr)
  | jpV0 (nnn : Addr)
  | rnd (x : RegIx) (nn : Byte)
  | drw (x y : RegIx) (n : Nibble)
  | skp (x : RegIx)
  | sknp (x : RegIx)
  | ldVxDt (x : RegIx)
  | ldVxK (x : RegIx)
  | ldDtVx (x : RegIx)
  | ldStVx (x : RegIx)
  | addIVx (x : RegIx)
  | ldFVx (x : RegIx)
  | ldBVx (x : RegIx)
  | ldMemVx (x : RegIx)
  | ldVxMem (x : RegIx)
deriving DecidableEq, Repr

end Sys2Proof
end

