-- ==== Sys2Proof/Decode.lean ====
section
/-! DEFINITION. The decoder (total, rejecting by name) and the encoder, both from the opcode map of 30_encoding.md
R44, and the machine-readable opcode table's mask and match of every row. -/

namespace Sys2Proof

/-- Why bytes decode to no instruction. `truncated`: fewer than the two bytes every instruction has (R41); a
step never meets it, since its fetch reads two bytes or faults (R32). `unknownOpcode`: a word R44 marks unknown (R46). -/
inductive DecodeError where
  | truncated (have_ : Nat)
  | unknownOpcode (word : Word)
deriving DecidableEq, Repr

/-- The opcode nibble `w[15:12]` (R42). -/
def fieldOp (w : Word) : Nibble := w.extractLsb' 12 4

/-- The field X, `w[11:8]` (R42). -/
def fieldX (w : Word) : Nibble := w.extractLsb' 8 4

/-- The field Y, `w[7:4]` (R42). -/
def fieldY (w : Word) : Nibble := w.extractLsb' 4 4

/-- The field N, `w[3:0]` (R42). -/
def fieldN (w : Word) : Nibble := w.extractLsb' 0 4

/-- The field NN, `w[7:0]` (R42). -/
def fieldNN (w : Word) : Byte := w.extractLsb' 0 8

/-- The field NNN, `w[11:0]` (R42). -/
def fieldNNN (w : Word) : Addr := w.extractLsb' 0 12

/-- The register a 4-bit field selects (R43). -/
def regOf (f : Nibble) : RegIx := f.toFin

/-- The 4-bit field that selects a register (R43). -/
def regBits (r : RegIx) : Nibble := BitVec.ofFin r

/-- Family 0x8: the low nibble selects the operation (R44). -/
def decodeAlu (w : Word) : Except DecodeError Instr :=
  let x := regOf (fieldX w)
  let y := regOf (fieldY w)
  match (fieldN w).toNat with
  | 0x0 => .ok (.ldReg x y)
  | 0x1 => .ok (.orReg x y)
  | 0x2 => .ok (.andReg x y)
  | 0x3 => .ok (.xorReg x y)
  | 0x4 => .ok (.addReg x y)
  | 0x5 => .ok (.subReg x y)
  | 0x6 => .ok (.shrReg x y)
  | 0x7 => .ok (.subnReg x y)
  | 0xE => .ok (.shlReg x y)
  | _ => .error (.unknownOpcode w)

/-- Family 0xE: the low byte selects the operation (R44). -/
def decodeKey (w : Word) : Except DecodeError Instr :=
  let x := regOf (fieldX w)
  match (fieldNN w).toNat with
  | 0x9E => .ok (.skp x)
  | 0xA1 => .ok (.sknp x)
  | _ => .error (.unknownOpcode w)

/-- Family 0xF: the low byte selects the operation (R44). -/
def decodeMisc (w : Word) : Except DecodeError Instr :=
  let x := regOf (fieldX w)
  match (fieldNN w).toNat with
  | 0x07 => .ok (.ldVxDt x)
  | 0x0A => .ok (.ldVxK x)
  | 0x15 => .ok (.ldDtVx x)
  | 0x18 => .ok (.ldStVx x)
  | 0x1E => .ok (.addIVx x)
  | 0x29 => .ok (.ldFVx x)
  | 0x33 => .ok (.ldBVx x)
  | 0x55 => .ok (.ldMemVx x)
  | 0x65 => .ok (.ldVxMem x)
  | _ => .error (.unknownOpcode w)

/-- The opcode map of R44. The last arm is never taken, since the opcode nibble is below 16. -/
def decodeWord (w : Word) : Except DecodeError Instr :=
  let x := regOf (fieldX w)
  let y := regOf (fieldY w)
  match (fieldOp w).toNat with
  | 0x0 =>
    if w = 0x00E0#16 then .ok .cls
    else if w = 0x00EE#16 then .ok .ret
    else .ok (.sys (fieldNNN w))
  | 0x1 => .ok (.jp (fieldNNN w))
  | 0x2 => .ok (.call (fieldNNN w))
  | 0x3 => .ok (.seImm x (fieldNN w))
  | 0x4 => .ok (.sneImm x (fieldNN w))
  | 0x5 => if fieldN w = 0 then .ok (.seReg x y) else .error (.unknownOpcode w)
  | 0x6 => .ok (.ldImm x (fieldNN w))
  | 0x7 => .ok (.addImm x (fieldNN w))
  | 0x8 => decodeAlu w
  | 0x9 => if fieldN w = 0 then .ok (.sneReg x y) else .error (.unknownOpcode w)
  | 0xA => .ok (.ldI (fieldNNN w))
  | 0xB => .ok (.jpV0 (fieldNNN w))
  | 0xC => .ok (.rnd x (fieldNN w))
  | 0xD => .ok (.drw x y (fieldN w))
  | 0xE => decodeKey w
  | 0xF => decodeMisc w
  | _ => .error (.unknownOpcode w)

/-- Two bytes as one word, the first the more significant (R32, R33). -/
def wordOfBytes (hi lo : Byte) : Word := hi ++ lo

/-- The two bytes of a word in the order memory holds them (R32, R33). -/
def bytesOfWord (w : Word) : List Byte := [w.extractLsb' 8 8, w.extractLsb' 0 8]

/-- Reads one instruction from the front of a list of bytes and gives the bytes after it: always exactly two
bytes (R41). -/
def decode : List Byte → Except DecodeError (Instr × List Byte)
  | hi :: lo :: rest => (decodeWord (wordOfBytes hi lo)).map fun i => (i, rest)
  | [_] => .error (.truncated 1)
  | [] => .error (.truncated 0)

/-- The word of format A: opcode nibble and NNN (R42). -/
def wordA (op : Nibble) (nnn : Addr) : Word := op ++ nnn

/-- The word of format XNN: opcode nibble, X and NN (R42). -/
def wordXNN (op x : Nibble) (nn : Byte) : Word := op ++ x ++ nn

/-- The word of format XYN: opcode nibble, X, Y and N (R42). -/
def wordXYN (op x y n : Nibble) : Word := op ++ x ++ y ++ n

/-- The word of an instruction, from the encoding column of the opcode table. -/
def encode : Instr → Word
  | .cls => 0x00E0#16
  | .ret => 0x00EE#16
  | .sys nnn => wordA 0x0#4 nnn
  | .jp nnn => wordA 0x1#4 nnn
  | .call nnn => wordA 0x2#4 nnn
  | .seImm x nn => wordXNN 0x3#4 (regBits x) nn
  | .sneImm x nn => wordXNN 0x4#4 (regBits x) nn
  | .seReg x y => wordXYN 0x5#4 (regBits x) (regBits y) 0x0#4
  | .ldImm x nn => wordXNN 0x6#4 (regBits x) nn
  | .addImm x nn => wordXNN 0x7#4 (regBits x) nn
  | .ldReg x y => wordXYN 0x8#4 (regBits x) (regBits y) 0x0#4
  | .orReg x y => wordXYN 0x8#4 (regBits x) (regBits y) 0x1#4
  | .andReg x y => wordXYN 0x8#4 (regBits x) (regBits y) 0x2#4
  | .xorReg x y => wordXYN 0x8#4 (regBits x) (regBits y) 0x3#4
  | .addReg x y => wordXYN 0x8#4 (regBits x) (regBits y) 0x4#4
  | .subReg x y => wordXYN 0x8#4 (regBits x) (regBits y) 0x5#4
  | .shrReg x y => wordXYN 0x8#4 (regBits x) (regBits y) 0x6#4
  | .subnReg x y => wordXYN 0x8#4 (regBits x) (regBits y) 0x7#4
  | .shlReg x y => wordXYN 0x8#4 (regBits x) (regBits y) 0xE#4
  | .sneReg x y => wordXYN 0x9#4 (regBits x) (regBits y) 0x0#4
  | .ldI nnn => wordA 0xA#4 nnn
  | .jpV0 nnn => wordA 0xB#4 nnn
  | .rnd x nn => wordXNN 0xC#4 (regBits x) nn
  | .drw x y n => wordXYN 0xD#4 (regBits x) (regBits y) n
  | .skp x => wordXNN 0xE#4 (regBits x) 0x9E#8
  | .sknp x => wordXNN 0xE#4 (regBits x) 0xA1#8
  | .ldVxDt x => wordXNN 0xF#4 (regBits x) 0x07#8
  | .ldVxK x => wordXNN 0xF#4 (regBits x) 0x0A#8
  | .ldDtVx x => wordXNN 0xF#4 (regBits x) 0x15#8
  | .ldStVx x => wordXNN 0xF#4 (regBits x) 0x18#8
  | .addIVx x => wordXNN 0xF#4 (regBits x) 0x1E#8
  | .ldFVx x => wordXNN 0xF#4 (regBits x) 0x29#8
  | .ldBVx x => wordXNN 0xF#4 (regBits x) 0x33#8
  | .ldMemVx x => wordXNN 0xF#4 (regBits x) 0x55#8
  | .ldVxMem x => wordXNN 0xF#4 (regBits x) 0x65#8

/-- The mask and the match of an instruction's row, copied from spec/opcode_table.json: `(mask, match)`. -/
def tableMaskMatch : Instr → Word × Word
  | .cls => (0xFFFF#16, 0x00E0#16)
  | .ret => (0xFFFF#16, 0x00EE#16)
  | .sys _ => (0xF000#16, 0x0000#16)
  | .jp _ => (0xF000#16, 0x1000#16)
  | .call _ => (0xF000#16, 0x2000#16)
  | .seImm _ _ => (0xF000#16, 0x3000#16)
  | .sneImm _ _ => (0xF000#16, 0x4000#16)
  | .seReg _ _ => (0xF00F#16, 0x5000#16)
  | .ldImm _ _ => (0xF000#16, 0x6000#16)
  | .addImm _ _ => (0xF000#16, 0x7000#16)
  | .ldReg _ _ => (0xF00F#16, 0x8000#16)
  | .orReg _ _ => (0xF00F#16, 0x8001#16)
  | .andReg _ _ => (0xF00F#16, 0x8002#16)
  | .xorReg _ _ => (0xF00F#16, 0x8003#16)
  | .addReg _ _ => (0xF00F#16, 0x8004#16)
  | .subReg _ _ => (0xF00F#16, 0x8005#16)
  | .shrReg _ _ => (0xF00F#16, 0x8006#16)
  | .subnReg _ _ => (0xF00F#16, 0x8007#16)
  | .shlReg _ _ => (0xF00F#16, 0x800E#16)
  | .sneReg _ _ => (0xF00F#16, 0x9000#16)
  | .ldI _ => (0xF000#16, 0xA000#16)
  | .jpV0 _ => (0xF000#16, 0xB000#16)
  | .rnd _ _ => (0xF000#16, 0xC000#16)
  | .drw _ _ _ => (0xF000#16, 0xD000#16)
  | .skp _ => (0xF0FF#16, 0xE09E#16)
  | .sknp _ => (0xF0FF#16, 0xE0A1#16)
  | .ldVxDt _ => (0xF0FF#16, 0xF007#16)
  | .ldVxK _ => (0xF0FF#16, 0xF00A#16)
  | .ldDtVx _ => (0xF0FF#16, 0xF015#16)
  | .ldStVx _ => (0xF0FF#16, 0xF018#16)
  | .addIVx _ => (0xF0FF#16, 0xF01E#16)
  | .ldFVx _ => (0xF0FF#16, 0xF029#16)
  | .ldBVx _ => (0xF0FF#16, 0xF033#16)
  | .ldMemVx _ => (0xF0FF#16, 0xF055#16)
  | .ldVxMem _ => (0xF0FF#16, 0xF065#16)

/-- The word of bits `w` of an opcode-table row of `nbits` bits, bit 0 the least significant bit of the first word,
the bits above `nbits` zero. No instruction is longer than one word (R41). -/
def tableWord (nbits w : Nat) : Word := BitVec.ofNat 16 (w % 2 ^ nbits)

/-- The instruction the decoder reads from a table row's word, laid out in memory's byte order. -/
def decodeTableWord (nbits w : Nat) : Option Instr :=
  match decode (bytesOfWord (tableWord nbits w)) with
  | .ok (i, _) => some i
  | .error _ => none

end Sys2Proof
end

