-- ==== Sys2Proof/Config.lean ====
section
/-! DEFINITION. What the spec leaves to the implementation (00_scope.md R4, the `OPEN` rows; 93_implementation_defined.md
U6, U7, U8). Each is an opaque constant: nothing can evaluate it or prove a value of it, so whatever is proved
holds for every value of it. -/

namespace Sys2Proof

/-- `SHIFT_QUIRK` of the core that `State.reset` builds (R19): a parameter, no default. Log entry 1. -/
opaque Config.shiftQuirk : Bool

/-- `LOADSTORE_QUIRK` of the core that `State.reset` builds (R20): a parameter, no default. Log entry 1. -/
opaque Config.loadStoreQuirk : Bool

/-- `FONT_TABLE` of the core that `State.reset` builds (R4, D2): 80 bytes the source does not give. Log entry 2. -/
opaque Config.fontTable : Vector Byte 80

/-- The free draws of Cxnn (R70, D14): the k-th draw that no host presents is `randomByte k`. Log entry 3. -/
opaque Config.randomByte : Nat → Byte

end Sys2Proof
end

