-- ==== Sys2Proof/Machine/State.lean ====
section
/-! DEFINITION. The state of the core as plain data (10_state.md), the fault record (60_exceptions.md R87), the reasons
an `Outcome` can stop with, and the state after reset (R26, R105). -/

namespace Sys2Proof.Machine

/-- Why an `OutOfBounds` fault was raised: the sub-kinds of R87. -/
inductive OutOfBoundsCause where
  | programLoad
  | stackOverflow
  | stackUnderflow
  | memoryAccess
  | fetch
  | keyIndex
deriving DecidableEq, Repr

/-- The kind of a fault of the core: the source's three names, `OutOfBounds` with its sub-kind (R87). -/
inductive FaultKind where
  | unknownOpcode
  | unimplementedOpcode
  | outOfBounds (cause : OutOfBoundsCause)
deriving DecidableEq, Repr

/-- The fault record of R87. Its numeric `code` is a function of `kind` (`FaultKind.code` in Operands.lean), so it is not
stored a second time. `word` is none where nothing was fetched; `pc` is the faulting instruction's address, or the
pc the core had for a fault of a host operation; `info` is the payload of R87's table. -/
structure FaultRecord where
  kind : FaultKind
  word : Option Word
  pc : Word
  info : Nat
deriving DecidableEq, Repr

/-- The reasons for which an `Outcome` stops with a fault: NONE. A fault of this core is state (`State.fault`, R21):
the step that raises it ends in a next state that holds its record (R91), and a halted core's step changes
nothing (R92). So no step of this model ends in `Outcome.fault`, by the type. Safe. Log entry 5. -/
inductive Fault where
deriving DecidableEq, Repr

/-- The reasons for which an `Outcome` is a refusal. -/
inductive Refusal where
  /-- An arm of `exec` whose instruction has no meaning yet; no arm is left that answers it. Safe. -/
  | notModelled (mnemonic : String)
  /-- Raised by the host operation `loadProgram` alone, on a halted core: "`load_program` is refused and writes
  nothing" (R92). No instruction and no step raises it. Safe. -/
  | loadOnHaltedCore
deriving DecidableEq, Repr

/-- The 4096 bytes of R8, as the bytes that differ from what an unlisted address reads as (`Memory.initial` in Ops.lean),
addresses strictly rising (log entry 11). -/
abbrev Memory := List Host.Cell

/-- The 2048 one-bit cells of R18, as the 32 rows of 64 of R77: bit c of row r is the cell `c + 64 * r` (log entry 8). -/
abbrev Framebuffer := Vector (BitVec 64) 32

/-- Every piece of state the spec gives the core (10_state.md R8 to R27), the two configuration bits and the font table
that `new` latches (R105), and the model's own two fields for the free draw of Cxnn (log entry 3). -/
structure State where
  /-- Memory (R8). -/
  mem : Memory
  /-- The general registers V0 to VF (R9, R10). -/
  v : Vector Byte 16
  /-- The address register I (R11). -/
  i : Word
  /-- The program counter (R12). -/
  pc : Word
  /-- The slots of the call stack (R13). -/
  stack : Vector Word 16
  /-- The stack pointer, 0 to 16 (R14). Log entry 7. -/
  sp : Fin 17
  /-- The delay timer DT (R15). -/
  dt : Byte
  /-- The sound timer ST (R16). -/
  st : Byte
  /-- The keypad, true while pressed (R17). -/
  key : Vector Bool 16
  /-- The framebuffer (R18). -/
  fb : Framebuffer
  /-- `SHIFT_QUIRK`, fixed for the run (R19). -/
  shiftQuirk : Bool
  /-- `LOADSTORE_QUIRK`, fixed for the run (R20). -/
  loadStoreQuirk : Bool
  /-- `FONT_TABLE`, latched by `new` for the run (R105). -/
  font : Vector Byte 80
  /-- The draw signal (R25). -/
  draw : Bool
  /-- The fault status (R21). -/
  fault : Option FaultRecord
  /-- The byte at the step's `RANDOM` input (R96), used only by Cxnn (R70). The model's own field: a free value. -/
  random : Byte
  /-- How many free draws have been taken. The model's own field: it makes each draw a fresh one (R70). -/
  draws : Nat
deriving DecidableEq, Repr

/-- `new(SHIFT_QUIRK, LOADSTORE_QUIRK, FONT_TABLE)` (R105), the state of R26: no memory byte is listed, and an
unlisted address reads as the font table below 0x50 and as zero above it. -/
def State.new (shiftQuirk loadStoreQuirk : Bool) (font : Vector Byte 80) : State where
  mem := []
  v := Vector.replicate 16 0
  i := 0
  pc := 0x200
  stack := Vector.replicate 16 0
  sp := 0
  dt := 0
  st := 0
  key := Vector.replicate 16 false
  fb := Vector.replicate 32 0
  shiftQuirk := shiftQuirk
  loadStoreQuirk := loadStoreQuirk
  font := font
  draw := false
  fault := none
  random := Config.randomByte 0
  draws := 1

/-- The core right after reset, with the parameters the spec leaves open taken from Config. -/
def State.reset : State := State.new Config.shiftQuirk Config.loadStoreQuirk Config.fontTable

/-- What an instruction's meaning and a step answer. -/
abbrev Result := Host.Outcome State Fault Refusal

end Sys2Proof.Machine
end

