-- ==== Sys2Proof/Machine/Ops.lean ====
section
/-! DEFINITION. The shared operations over memory, the call stack and the pc, and the raising of a fault, written once
(20_memory.md, 10_state.md, 60_exceptions.md R87 to R93). -/

namespace Sys2Proof.Machine

/-- What an unlisted address reads as: the reset contents of R26, the font table at 0x000 to 0x04F and zero above. -/
def Memory.initial (font : Vector Byte 80) (a : Nat) : Byte :=
  if h : a < 80 then font[a] else 0

/-- The byte listed for an address, if one is. -/
def Memory.lookup : Memory → Nat → Option Byte
  | [], _ => none
  | (k, b) :: m, a => if a = k then some b else Memory.lookup m a

/-- `mem[a]` (R30). -/
def Memory.read (font : Vector Byte 80) (m : Memory) (a : Nat) : Byte :=
  (Memory.lookup m a).getD (Memory.initial font a)

/-- Removes the entry of an address. -/
def Memory.erase (m : Memory) (a : Nat) : Memory := m.filter fun c => decide (c.1 ≠ a)

/-- Lists a byte for an address, in its place among rising addresses. -/
def Memory.put : Memory → Nat → Byte → Memory
  | [], a, b => [(a, b)]
  | (k, c) :: m, a, b =>
    if a < k then (a, b) :: (k, c) :: m
    else if a = k then (a, b) :: m
    else (k, c) :: Memory.put m a b

/-- `mem[a] <- b` (R31), in canonical form: a byte equal to what the unlisted address reads as is not listed. -/
def Memory.write (font : Vector Byte 80) (m : Memory) (a : Nat) (b : Byte) : Memory :=
  if b = Memory.initial font a then Memory.erase m a else Memory.put m a b

/-- Consecutive bytes written from an address upward, in ascending order (R74, R75, R107). -/
def Memory.writeBytes (font : Vector Byte 80) (m : Memory) (a : Nat) : List Byte → Memory
  | [] => m
  | b :: bs => Memory.writeBytes font (Memory.write font m a b) (a + 1) bs

/-- The canonical form: addresses strictly rising and below 0x1000 (R8), no entry equal to the initial byte. -/
abbrev Memory.wf (font : Vector Byte 80) (m : Memory) : Prop :=
  m.Pairwise (fun c d => c.1 < d.1) ∧ ∀ c ∈ m, c.1 < 0x1000 ∧ c.2 ≠ Memory.initial font c.1

/-- `MemRead(a, 1)` (R30). -/
def State.readByte (s : State) (a : Nat) : Byte := Memory.read s.font s.mem a

/-- The `n` bytes at `a, a + 1, …` (R28, R78). -/
def State.readBytes (s : State) (a n : Nat) : List Byte :=
  (List.range n).map fun k => s.readByte (a + k)

/-- `MemWrite` of consecutive bytes from `a` upward (R31, R107). -/
def State.writeBytes (s : State) (a : Nat) (bs : List Byte) : State :=
  { s with mem := Memory.writeBytes s.font s.mem a bs }

/-- Whether the `n` bytes at `a` all lie below 0x1000, in unbounded arithmetic; no byte always does (R29, R80). -/
def blockInRange (a n : Nat) : Bool := n == 0 || decide (a + n ≤ 0x1000)

/-- The lowest address at or above 0x1000 that a block starting at `a` and leaving memory touches:
`max(a, 0x1000)` (R74, R75, R76, R80). -/
def lowestOutOfRange (a : Nat) : Nat := max a 0x1000

/-- Sets the fault status to a record (R21). -/
def State.recordFault (s : State) (r : FaultRecord) : State := { s with fault := some r }

/-- THE RAISING OF A FAULT IN A STEP (R87, R91): the step commits none of its writes, so the pc is again the faulting
instruction's address; `draw` is false and `fault` holds the record. Every check of an instruction stands
before its first write (R29, R91), so the pc's advance is the only write there is to undo. -/
def State.takeFault (s : State) (kind : FaultKind) (word : Option Word) (pc : Word) (info : Nat) : State :=
  State.recordFault { s with pc := pc, draw := false } { kind := kind, word := word, pc := pc, info := info }

/-- `raise E(info)` in an instruction's execute phase, where `pc` is the instruction's address plus 2 (R40):
the fault is taken with that address and the instruction's word (log entry 10). -/
def raise (kind : FaultKind) (word : Word) (info : Nat) (s : State) : Result :=
  .next (s.takeFault kind (some word) (s.pc - 2) info)

/-- The start of the execute phase: the pc past the instruction, `draw` at its default (R25, R40). -/
def State.beginExecute (s : State) : State := { s with pc := s.pc + 2, draw := false }

/-- The step commits its writes. -/
def done (s : State) : Result := .next s

/-- `pc <- target`. -/
def State.jump (s : State) (target : Word) : State := { s with pc := target }

/-- A skip passes over the next two bytes, on top of the fetch's advance (00_scope.md §6). -/
def State.skipIf (s : State) (c : Bool) : State := { s with pc := if c then s.pc + 2 else s.pc }

/-- 2nnn's push: `stack[SP] <- value`, then `SP <- SP + 1`; none at SP = 16 (R14, R51). -/
def State.push (s : State) (value : Word) : Option State :=
  if h : s.sp.val < 16 then
    some { s with stack := s.stack.set s.sp.val value, sp := ⟨s.sp.val + 1, by omega⟩ }
  else none

/-- 00EE's pop: `SP <- SP - 1`, then `stack[SP]`, which keeps its value; none at SP = 0 (R13, R14, R49). -/
def State.pop (s : State) : Option (State × Word) :=
  if h : 0 < s.sp.val then
    some ({ s with sp := ⟨s.sp.val - 1, by omega⟩ }, s.stack[s.sp.val - 1])
  else none

/-- Consumes the byte at the `RANDOM` input, so that the next execution of Cxnn has a fresh draw (R70, D14). -/
def State.nextDraw (s : State) : State :=
  { s with random := Config.randomByte s.draws, draws := s.draws + 1 }

end Sys2Proof.Machine
end

