-- ==== Sys2Proof/Machine/Operands.lean ====
section
/-! DEFINITION. The operand forms: registers, immediates, the block at I, the keypad index, and the numbering of
faults (30_encoding.md R43, 42_index_memory.md, 44_keypad_timers.md, 60_exceptions.md R87). -/

namespace Sys2Proof.Machine

/-- `V[r]` (R9). -/
def State.reg (s : State) (r : RegIx) : Byte := s.v[r.val]

/-- `V[r] <- b` (R9). No register is hardwired. -/
def State.setReg (s : State) (r : RegIx) (b : Byte) : State := { s with v := s.v.set r.val b }

/-- `I <- a` (R11). -/
def State.setI (s : State) (a : Word) : State := { s with i := a }

/-- `zext_16(nnn)` (R43). -/
def zext16 (nnn : Addr) : Word := nnn.setWidth 16

/-- A register's value as a 16-bit number (R56, R72). -/
def byteAsWord (b : Byte) : Word := b.setWidth 16

/-- The effective address of byte `k` of the block at I, with no 16-bit wrap (42_index_memory.md, R29). -/
def State.blockAddr (s : State) (k : Nat) : Nat := s.i.toNat + k

/-- The registers V0 to Vx as bytes, V0 first (R75). -/
def State.regsUpTo (s : State) (x : RegIx) : List Byte := s.v.toList.take (x.val + 1)

/-- `V[k] <- mem[I + k]` for k in 0 to x (R76). -/
def State.loadRegsUpTo (s : State) (x : RegIx) : State :=
  { s with v := Vector.ofFn fun k : Fin 16 => if k ≤ x then s.readByte (s.blockAddr k.val) else s.v[k.val] }

/-- The advance of I after Fx55 and Fx65: by x + 1 when `LOADSTORE_QUIRK` is false, none when it is true (R20). -/
def State.advanceI (s : State) (x : RegIx) : State :=
  { s with i := if s.loadStoreQuirk then s.i else s.i + BitVec.ofNat 16 (x.val + 1) }

/-- The decimal digits that Fx33 stores: hundreds, tens, ones (R74). -/
def bcdDigits (b : Byte) : List Byte :=
  [BitVec.ofNat 8 (b.toNat / 100), BitVec.ofNat 8 (b.toNat / 10 % 10), BitVec.ofNat 8 (b.toNat % 10)]

/-- The level of key `k`; there is no key above 15 (R17). -/
def State.keyPressed (s : State) (k : Nat) : Bool := s.key[k]?.getD false

/-- The pressed key of lowest index (R84). -/
def State.firstPressed (s : State) : Option Nat := (List.range 16).find? fun k => s.keyPressed k

/-- The numeric code of a fault (R87). -/
def FaultKind.code : FaultKind → Nat
  | .unknownOpcode => 1
  | .unimplementedOpcode => 2
  | .outOfBounds .programLoad => 3
  | .outOfBounds .stackOverflow => 4
  | .outOfBounds .stackUnderflow => 5
  | .outOfBounds .memoryAccess => 6
  | .outOfBounds .fetch => 7
  | .outOfBounds .keyIndex => 8

end Sys2Proof.Machine
end

