-- ==== Sys2Proof/Machine/Flags.lean ====
section
/-! DEFINITION. Every value that VF receives as a flag (10_state.md R10, 41_alu.md R58). A flag is the byte 0 or 1. -/

namespace Sys2Proof.Machine

/-- A truth value as VF holds it: 1 or 0 (R10). -/
def flag (c : Bool) : Byte := if c then 1 else 0

/-- The carry of an 8-bit addition: the integer sum is above 255 (R58, R65). -/
def carry (a b : Byte) : Bool := decide (a.toNat + b.toNat > 255)

/-- The borrow of `a - b`: `a < b`, unsigned; equality is not a borrow (R58, R66, R68). -/
def borrow (a b : Byte) : Bool := decide (a.toNat < b.toNat)

/-- The bit a right shift by 1 shifts out: bit 0, as 0 or 1 (R67). -/
def lowBit (b : Byte) : Byte := b &&& 1

/-- The bit a left shift by 1 shifts out: bit 7, as 0 or 1 (R69, D24). -/
def highBit (b : Byte) : Byte := b >>> 7

/-- The conditional flag write of R65, R66 and R68: `if c: V[15] <- value`. -/
def State.setFlagIf (s : State) (c : Bool) (value : Byte) : State :=
  s.setReg vF (if c then value else s.reg vF)

end Sys2Proof.Machine
end

