-- ==== Sys2Proof/Machine/Alu.lean ====
section
/-! DEFINITION. The meanings of 41_alu.md. The statements of each run in the order written, and every read sees the
writes before it (00_scope.md R5): this decides the result where x or y is 0xF. -/

namespace Sys2Proof.Machine

/-- LD Vx, nn, 6xnn (R59). -/
def execLdImm (x : RegIx) (nn : Byte) (s : State) : Result := done (s.setReg x nn)

/-- ADD Vx, nn, 7xnn: wraps, writes no flag (R60). -/
def execAddImm (x : RegIx) (nn : Byte) (s : State) : Result := done (s.setReg x (s.reg x + nn))

/-- LD Vx, Vy, 8xy0 (R61). -/
def execLdReg (x y : RegIx) (s : State) : Result := done (s.setReg x (s.reg y))

/-- OR Vx, Vy, 8xy1: writes no flag (R62). -/
def execOrReg (x y : RegIx) (s : State) : Result := done (s.setReg x (s.reg x ||| s.reg y))

/-- AND Vx, Vy, 8xy2 (R63). -/
def execAndReg (x y : RegIx) (s : State) : Result := done (s.setReg x (s.reg x &&& s.reg y))

/-- XOR Vx, Vy, 8xy3 (R64). -/
def execXorReg (x y : RegIx) (s : State) : Result := done (s.setReg x (s.reg x ^^^ s.reg y))

/-- ADD Vx, Vy, 8xy4: VF cleared, the operands read, VF set on carry, the wrapped sum stored (R65). -/
def execAddReg (x y : RegIx) (s : State) : Result :=
  let s₁ := s.setReg vF 0
  let a := s₁.reg x
  let b := s₁.reg y
  done ((s₁.setFlagIf (carry a b) 1).setReg x (a + b))

/-- `V[15] <- 1`, then `a - b` of the operands `p` and `q` read after it into Vx, VF cleared on borrow: the order
R66 and R68 share. -/
def State.subtractInto (s : State) (x p q : RegIx) : State :=
  let s₁ := s.setReg vF 1
  let a := s₁.reg p
  let b := s₁.reg q
  (s₁.setFlagIf (borrow a b) 0).setReg x (a - b)

/-- SUB Vx, Vy, 8xy5 (R66). -/
def execSubReg (x y : RegIx) (s : State) : Result := done (s.subtractInto x x y)

/-- The shifts' order (R67, R69): VF receives the bit shifted out of the source, the source (then holding what that
write left) is shifted in place, and its value is copied to Vx. With `SHIFT_QUIRK` the source is Vx itself, and the
copy changes nothing; without it the source is Vy. -/
def State.shiftInto (s : State) (x source : RegIx) (out shifted : Byte → Byte) : State :=
  let s₁ := s.setReg vF (out (s.reg source))
  let s₂ := s₁.setReg source (shifted (s₁.reg source))
  s₂.setReg x (s₂.reg source)

/-- The register 8xy6 and 8xyE shift: Vx when `SHIFT_QUIRK` is true, Vy when it is false (R19, R67, R69). -/
def State.shiftSource (s : State) (x y : RegIx) : RegIx := if s.shiftQuirk then x else y

/-- SHR Vx, Vy, 8xy6 (R67). -/
def execShrReg (x y : RegIx) (s : State) : Result :=
  done (s.shiftInto x (s.shiftSource x y) lowBit fun b => b >>> 1)

/-- SUBN Vx, Vy, 8xy7 (R68). -/
def execSubnReg (x y : RegIx) (s : State) : Result := done (s.subtractInto x y x)

/-- SHL Vx, Vy, 8xyE (R69). -/
def execShlReg (x y : RegIx) (s : State) : Result :=
  done (s.shiftInto x (s.shiftSource x y) highBit fun b => b <<< 1)

/-- RND Vx, nn, Cxnn: the draw masked by nn; the next execution has a fresh draw (R70). -/
def execRnd (x : RegIx) (nn : Byte) (s : State) : Result := done ((s.setReg x (s.random &&& nn)).nextDraw)

end Sys2Proof.Machine
end

