-- ==== Sys2Proof/Machine/ControlFlow.lean ====
section
/-! DEFINITION. The meanings of 40_control_flow.md. In each, `pc` is the instruction's own address plus 2 (R40). -/

namespace Sys2Proof.Machine

/-- RET, 00EE (R49). -/
def execRet (s : State) : Result :=
  match s.pop with
  | none => raise (.outOfBounds .stackUnderflow) (encode .ret) s.sp.val s
  | some (s', target) => done (s'.jump target)

/-- SYS nnn, 0nnn: always raises UnimplementedOpcode with its word (R57, R89). -/
def execSys (nnn : Addr) (s : State) : Result :=
  raise .unimplementedOpcode (encode (.sys nnn)) (encode (.sys nnn)).toNat s

/-- JP nnn, 1nnn (R50). -/
def execJp (nnn : Addr) (s : State) : Result := done (s.jump (zext16 nnn))

/-- CALL nnn, 2nnn: pushes the address of the CALL plus 2 (R51). -/
def execCall (nnn : Addr) (s : State) : Result :=
  match s.push s.pc with
  | none => raise (.outOfBounds .stackOverflow) (encode (.call nnn)) s.sp.val s
  | some s' => done (s'.jump (zext16 nnn))

/-- SE Vx, nn, 3xnn (R52). -/
def execSeImm (x : RegIx) (nn : Byte) (s : State) : Result := done (s.skipIf (s.reg x == nn))

/-- SNE Vx, nn, 4xnn (R53). -/
def execSneImm (x : RegIx) (nn : Byte) (s : State) : Result := done (s.skipIf (s.reg x != nn))

/-- SE Vx, Vy, 5xy0 (R54). -/
def execSeReg (x y : RegIx) (s : State) : Result := done (s.skipIf (s.reg x == s.reg y))

/-- SNE Vx, Vy, 9xy0 (R55). -/
def execSneReg (x y : RegIx) (s : State) : Result := done (s.skipIf (s.reg x != s.reg y))

/-- JP V0, nnn, Bnnn: always V0, the sum not truncated to 12 bits (R56). -/
def execJpV0 (nnn : Addr) (s : State) : Result := done (s.jump (zext16 nnn + byteAsWord (s.reg 0)))

end Sys2Proof.Machine
end

