-- ==== Sys2Proof/Machine/Display.lean ====
section
/-! DEFINITION. The framebuffer's cells, the sprite draw and the meanings of 43_display.md. -/

namespace Sys2Proof.Machine

/-- `fb[i]`: bit `i mod 64` of row `i div 64` (R18, R77). There is no cell above 2047. -/
def Framebuffer.cell (fb : Framebuffer) (i : Nat) : Bool := (fb[i / 64]?.getD 0).getLsbD (i % 64)

/-- `fb[i] <- fb[i] ^ 1`, for a cell below 2048 (R80). -/
def Framebuffer.toggle (fb : Framebuffer) (i : Nat) : Framebuffer :=
  fb.setIfInBounds (i / 64) (fb[i / 64]?.getD 0 ^^^ BitVec.twoPow 64 (i % 64))

/-- The blank framebuffer (R26, R79). -/
def Framebuffer.blank : Framebuffer := Vector.replicate 32 0

/-- `fb[i]` of the state's framebuffer (R18). -/
def State.cell (s : State) (i : Nat) : Bool := Framebuffer.cell s.fb i

/-- `((px + col) + (py + row) * 64) mod 2048`, in integer arithmetic (R80, D23). -/
def pixelIndex (px py : Byte) (row col : Nat) : Nat := ((px.toNat + col) + (py.toNat + row) * 64) % 2048

/-- The pixel of column `col` of a sprite byte: bit 7 is the leftmost (R78, D6). -/
def spriteBit (b : Byte) (col : Nat) : Bool := (b >>> (7 - col)) &&& 1 == 1

/-- One pixel: where the sprite's bit is set, a collision is noted if the cell is 1, and the cell is toggled (R80).
The pair holds the framebuffer and whether a collision has occurred. -/
def drawPixel (px py : Byte) (row : Nat) (b : Byte) (d : Framebuffer × Bool) (col : Nat) : Framebuffer × Bool :=
  if spriteBit b col then
    let idx := pixelIndex px py row col
    (Framebuffer.toggle d.1 idx, d.2 || Framebuffer.cell d.1 idx)
  else d

/-- One row of a sprite, columns 0 to 7 in order (R80). -/
def drawRow (px py : Byte) (row : Nat) (b : Byte) (d : Framebuffer × Bool) : Framebuffer × Bool :=
  (List.range 8).foldl (drawPixel px py row b) d

/-- The rows of a sprite, the first of `bs` at row number `row` (R80). -/
def drawRows (px py : Byte) : Nat → List Byte → Framebuffer × Bool → Framebuffer × Bool
  | _, [], d => d
  | row, b :: bs, d => drawRows px py (row + 1) bs (drawRow px py row b d)

/-- CLS, 00E0: sets `draw` even when the framebuffer was already clear (R79). -/
def execCls (s : State) : Result := done { s with fb := Framebuffer.blank, draw := true }

/-- DRW Vx, Vy, n, Dxyn: the position is read before VF is cleared; VF is the collision of the whole sprite; `draw` is
set even when no pixel changed (R80, D5). -/
def execDrw (x y : RegIx) (n : Nibble) (s : State) : Result :=
  if blockInRange (s.blockAddr 0) n.toNat then
    let d := drawRows (s.reg x) (s.reg y) 0 (s.readBytes (s.blockAddr 0) n.toNat) (s.fb, false)
    done { s.setReg vF (flag d.2) with fb := d.1, draw := true }
  else raise (.outOfBounds .memoryAccess) (encode (.drw x y n)) (lowestOutOfRange (s.blockAddr 0)) s

end Sys2Proof.Machine
end

