-- ==== Sys2Proof/Machine/IndexMemory.lean ====
section
/-! DEFINITION. The meanings of 42_index_memory.md. A block access checks every byte before any byte moves (R29, R91). -/

namespace Sys2Proof.Machine

/-- LD I, nnn, Annn (R71). -/
def execLdI (nnn : Addr) (s : State) : Result := done (s.setI (zext16 nnn))

/-- ADD I, Vx, Fx1E: wraps modulo 0x10000, writes no flag (R72, D3). -/
def execAddIVx (x : RegIx) (s : State) : Result := done (s.setI (s.i + byteAsWord (s.reg x)))

/-- LD F, Vx, Fx29: `I <- V[x] * 5`, no mask (R73). -/
def execLdFVx (x : RegIx) (s : State) : Result := done (s.setI (byteAsWord (s.reg x) * 5))

/-- LD B, Vx, Fx33 (R74). -/
def execLdBVx (x : RegIx) (s : State) : Result :=
  if blockInRange (s.blockAddr 0) 3 then done (s.writeBytes (s.blockAddr 0) (bcdDigits (s.reg x)))
  else raise (.outOfBounds .memoryAccess) (encode (.ldBVx x)) (lowestOutOfRange (s.blockAddr 0)) s

/-- LD [I], Vx, Fx55 (R75). -/
def execLdMemVx (x : RegIx) (s : State) : Result :=
  if blockInRange (s.blockAddr 0) (x.val + 1) then
    done ((s.writeBytes (s.blockAddr 0) (s.regsUpTo x)).advanceI x)
  else raise (.outOfBounds .memoryAccess) (encode (.ldMemVx x)) (lowestOutOfRange (s.blockAddr 0)) s

/-- LD Vx, [I], Fx65 (R76). -/
def execLdVxMem (x : RegIx) (s : State) : Result :=
  if blockInRange (s.blockAddr 0) (x.val + 1) then done ((s.loadRegsUpTo x).advanceI x)
  else raise (.outOfBounds .memoryAccess) (encode (.ldVxMem x)) (lowestOutOfRange (s.blockAddr 0)) s

end Sys2Proof.Machine
end

