-- ==== Sys2Proof/Machine/KeypadTimers.lean ====
section
/-! DEFINITION. The meanings of 44_keypad_timers.md. The keypad is read and never written (R17). -/

namespace Sys2Proof.Machine

/-- SKP Vx, Ex9E (R81). -/
def execSkp (x : RegIx) (s : State) : Result :=
  if (s.reg x).toNat > 15 then raise (.outOfBounds .keyIndex) (encode (.skp x)) (s.reg x).toNat s
  else done (s.skipIf (s.keyPressed (s.reg x).toNat))

/-- SKNP Vx, ExA1 (R82). -/
def execSknp (x : RegIx) (s : State) : Result :=
  if (s.reg x).toNat > 15 then raise (.outOfBounds .keyIndex) (encode (.sknp x)) (s.reg x).toNat s
  else done (s.skipIf (!s.keyPressed (s.reg x).toNat))

/-- LD Vx, DT, Fx07 (R83). -/
def execLdVxDt (x : RegIx) (s : State) : Result := done (s.setReg x s.dt)

/-- LD Vx, K, Fx0A: the lowest pressed key, or the pc rewound to this instruction (R84). -/
def execLdVxK (x : RegIx) (s : State) : Result :=
  match s.firstPressed with
  | some k => done (s.setReg x (BitVec.ofNat 8 k))
  | none => done (s.jump (s.pc - 2))

/-- LD DT, Vx, Fx15 (R85). -/
def execLdDtVx (x : RegIx) (s : State) : Result := done { s with dt := s.reg x }

/-- LD ST, Vx, Fx18 (R86). -/
def execLdStVx (x : RegIx) (s : State) : Result := done { s with st := s.reg x }

end Sys2Proof.Machine
end

