-- ==== Sys2Proof/Machine/Fetch.lean ====
section
/-! DEFINITION. Instruction fetch and the faults of a step that come before execution (20_memory.md R32,
30_encoding.md R40, R46). -/

namespace Sys2Proof.Machine

/-- The word at the pc, big-endian; none where `pc + 1` is outside memory (R32). -/
def State.fetchWord (s : State) : Option Word :=
  if s.pc.toNat < 0xFFF then some (wordOfBytes (s.readByte s.pc.toNat) (s.readByte (s.pc.toNat + 1))) else none

/-- `raise OutOfBounds(Fetch, pc)`: nothing was fetched (R32, R87). -/
def raiseFetch (s : State) : Result :=
  .next (s.takeFault (.outOfBounds .fetch) none s.pc s.pc.toNat)

/-- `raise UnknownOpcode(word)` at decode (R46, R87, R88). -/
def raiseUnknown (word : Word) (s : State) : Result :=
  .next (s.takeFault .unknownOpcode (some word) s.pc word.toNat)

/-- Places a word where the next fetch reads it. A fetch needs a pc below 0xFFF and a core that is not halted: where `s` is
halted or its pc lies higher, the fault is cleared and the pc set to the load address; nothing else changes (log
entry 4). -/
def State.placeWord (s : State) (w : Word) : State :=
  let s₁ : State := { s with fault := none, pc := if s.pc.toNat < 0xFFF then s.pc else 0x200 }
  s₁.writeBytes s₁.pc.toNat (bytesOfWord w)

end Sys2Proof.Machine
end

