-- ==== Sys2Proof/Machine/Cycle.lean ====
section
/-! DEFINITION. The fetch-decode-execute cycle (30_encoding.md R40). -/

namespace Sys2Proof.Machine

/-- The cycle of a core that is not halted: fetch, advance, decode, execute (R40), the checks in R93's order. -/
def cycle (s : State) : Result :=
  match s.fetchWord with
  | none => raiseFetch s
  | some word =>
    match decodeWord word with
    | .error _ => raiseUnknown word s
    | .ok i => exec i s.beginExecute

end Sys2Proof.Machine
end

