-- ==== Sys2Proof/Machine/Step.lean ====
section
/-! DEFINITION. The step: the halted check and the cycle (30_encoding.md R40, 60_exceptions.md R92). -/

namespace Sys2Proof.Machine

/-- One `step`: exactly one instruction, or no change on a halted core (R40, R92). The byte at the `RANDOM` input is the
one the state holds. -/
def step (s : State) : Host.Outcome State Fault Refusal :=
  if s.fault.isSome then .next s else cycle s

/-- `s` with the instruction of bits `w` (numbered as the opcode table numbers them) where `step` fetches next. -/
def State.withFetchWord (s : State) (nbits w : Nat) : State := s.placeWord (tableWord nbits w)

end Sys2Proof.Machine
end

