-- ==== Sys2Proof/Machine/Transactions.lean ====
section
/-! DEFINITION. The core's whole host interface (60_exceptions.md R96): every transaction, its inputs and its outputs.
Each is one indivisible transition of the whole state (R7). -/

namespace Sys2Proof.Machine

/-- The transactions of R96, with their inputs. A key index is a 4-bit port, so no other can be presented (R100). -/
inductive Transaction where
  | new (shiftQuirk loadStoreQuirk : Bool) (font : Vector Byte 80)
  | loadProgram (bytes : List Byte)
  | step (random : Byte)
  | tickTimers
  | keyDown (k : Fin 16)
  | keyUp (k : Fin 16)
  | readFramebuffer
  | readDraw
  | readSound
  | readDelayTimer
  | readFault
deriving DecidableEq, Repr

/-- The outputs of R96. -/
inductive Reply where
  | nothing
  | loadOk
  | loadFault (r : FaultRecord)
  | loadRefused
  | stepped (draw : Bool) (fault : Option FaultRecord)
  | framebuffer (fb : Framebuffer)
  | draw (b : Bool)
  | sound (b : Bool)
  | delayTimer (b : Byte)
  | fault (f : Option FaultRecord)
deriving DecidableEq, Repr

/-- `new` on an existing core: a new core, of which nothing survives (R105, D29). The two fields of the free draw are no
state of the core, so the draws go on and stay fresh (log entry 3). -/
def State.renew (s : State) (shiftQuirk loadStoreQuirk : Bool) (font : Vector Byte 80) : State :=
  { State.new shiftQuirk loadStoreQuirk font with random := s.random, draws := s.draws }

/-- The record of an image that does not fit: nothing was fetched, the pc is the one the core had (R87, R108). -/
def programLoadFault (s : State) (len : Nat) : FaultRecord :=
  { kind := .outOfBounds .programLoad, word := none, pc := s.pc, info := len }

/-- `load_program` (R107, R108): refused on a halted core; a fault where the image does not fit, no byte written;
otherwise the image's bytes at 0x200 upward, and nothing else. -/
def loadProgram (bytes : List Byte) (s : State) : Result :=
  if s.fault.isSome then .refused .loadOnHaltedCore
  else if 0x200 + bytes.length ≤ 0x1000 then .next (s.writeBytes 0x200 bytes)
  else .next (s.recordFault (programLoadFault s bytes.length))

/-- `tick_timers`: each timer down by one, saturating at 0 (R98). -/
def State.tickTimers (s : State) : State :=
  { s with
    dt := if s.dt.toNat > 0 then s.dt - 1 else s.dt
    st := if s.st.toNat > 0 then s.st - 1 else s.st }

/-- `key_down(k)` (R100). -/
def State.keyDown (s : State) (k : Fin 16) : State := { s with key := s.key.set k.val true }

/-- `key_up(k)` (R100). -/
def State.keyUp (s : State) (k : Fin 16) : State := { s with key := s.key.set k.val false }

/-- The output `sound_active`: `ST != 0`, not stored (R23). -/
def State.soundActive (s : State) : Bool := s.st != 0

/-- `step` with a byte presented at its `RANDOM` input (R96); a halted core changes nothing (R92). -/
def stepWith (random : Byte) (s : State) : Result :=
  if s.fault.isSome then .next s else step { s with random := random }

/-- The state an outcome leaves: a refusal leaves the state it was given; there is no `Fault` to stop with. -/
def stateAfter (s : State) : Result → State
  | .next s' => s'
  | .fault r => nomatch r
  | .refused _ => s

/-- What `load_program` reports: ok, the fault it raised, or that it was refused (R96, R92). -/
def loadReply : Result → Reply
  | .next s' => match s'.fault with
    | none => .loadOk
    | some r => .loadFault r
  | .fault r => nomatch r
  | .refused _ => .loadRefused

/-- One transaction: its outputs and the state after it (R96). Every read accessor leaves the state as it is (D18). -/
def transact (t : Transaction) (s : State) : Reply × State :=
  match t with
  | .new sq lq font => (.nothing, s.renew sq lq font)
  | .loadProgram bytes => (loadReply (loadProgram bytes s), stateAfter s (loadProgram bytes s))
  | .step random =>
    let s' := stateAfter s (stepWith random s)
    (.stepped s'.draw s'.fault, s')
  | .tickTimers => (.nothing, s.tickTimers)
  | .keyDown k => (.nothing, s.keyDown k)
  | .keyUp k => (.nothing, s.keyUp k)
  | .readFramebuffer => (.framebuffer s.fb, s)
  | .readDraw => (.draw s.draw, s)
  | .readSound => (.sound s.soundActive, s)
  | .readDelayTimer => (.delayTimer s.dt, s)
  | .readFault => (.fault s.fault, s)

/-- The state after a host's schedule of transactions, in order (R7, R112). -/
def runTransactions : List Transaction → State → State
  | [], s => s
  | t :: ts, s => runTransactions ts (transact t s).2

end Sys2Proof.Machine
end

