-- ==== Sys2Proof/Safety.lean ====
section
/-! DEFINITION. The terms the statements use: which pieces of state an instruction may write, which fault an instruction
raises and when, the invariant every step keeps, and the end states of a run. Each is a table or a sentence of the
spec written down apart from the machine, for the machine to be held against. -/

namespace Sys2Proof.Machine

/-- The pieces of state that an instruction can write (R8 to R18, R25, and the model's free draw). The keypad, the
quirk bits and the font table are not among them: no instruction writes those (R17, R19, R20). -/
inductive Piece where
  | reg (r : RegIx)
  | i
  | pc
  | stack
  | sp
  | dt
  | st
  | fb
  | draw
  | mem
  | freeDraw
deriving DecidableEq, Repr

/-- `t` differs from `s` at most in the listed pieces (R6). Memory is compared by reading every byte. -/
structure OnlyWrites (ps : List Piece) (s t : State) : Prop where
  reg : ∀ r, Piece.reg r ∉ ps → t.reg r = s.reg r
  i : Piece.i ∉ ps → t.i = s.i
  pc : Piece.pc ∉ ps → t.pc = s.pc
  stack : Piece.stack ∉ ps → t.stack = s.stack
  sp : Piece.sp ∉ ps → t.sp = s.sp
  dt : Piece.dt ∉ ps → t.dt = s.dt
  st : Piece.st ∉ ps → t.st = s.st
  fb : Piece.fb ∉ ps → t.fb = s.fb
  draw : Piece.draw ∉ ps → t.draw = s.draw
  mem : Piece.mem ∉ ps → ∀ a, t.readByte a = s.readByte a
  freeDraw : Piece.freeDraw ∉ ps → t.random = s.random ∧ t.draws = s.draws
  key : t.key = s.key
  quirks : t.shiftQuirk = s.shiftQuirk ∧ t.loadStoreQuirk = s.loadStoreQuirk
  font : t.font = s.font
  fault : t.fault = s.fault

/-- The pieces an instruction that raises no fault may write, from the rules' pseudocode: `sq` and `lq` are the two quirk
bits (R6, R10 to R18, R49 to R86). -/
def writes (sq lq : Bool) : Instr → List Piece
  | .cls => [.fb, .draw]
  | .ret => [.pc, .sp]
  | .sys _ => []
  | .jp _ | .jpV0 _ => [.pc]
  | .call _ => [.pc, .stack, .sp]
  | .seImm _ _ | .sneImm _ _ | .seReg _ _ | .sneReg _ _ | .skp _ | .sknp _ => [.pc]
  | .ldImm x _ | .addImm x _ | .ldReg x _ | .orReg x _ | .andReg x _ | .xorReg x _ | .ldVxDt x => [.reg x]
  | .addReg x _ | .subReg x _ | .subnReg x _ => [.reg x, .reg vF]
  | .shrReg x y | .shlReg x y => if sq then [.reg x, .reg vF] else [.reg x, .reg y, .reg vF]
  | .ldI _ | .addIVx _ | .ldFVx _ => [.i]
  | .rnd x _ => [.reg x, .freeDraw]
  | .drw _ _ _ => [.reg vF, .fb, .draw]
  | .ldVxK x => [.reg x, .pc]
  | .ldDtVx _ => [.dt]
  | .ldStVx _ => [.st]
  | .ldBVx _ => [.mem]
  | .ldMemVx _ => if lq then [.mem] else [.mem, .i]
  | .ldVxMem x =>
    let regs := ((List.finRange 16).filter (· ≤ x)).map Piece.reg
    if lq then regs else .i :: regs

/-- The kind and the payload of the fault an instruction raises, and none where it raises none: the "raised by" and
"info" columns of R87 with the conditions of R49, R51, R57, R74 to R76 and R80 to R82. -/
def faultOf (s : State) : Instr → Option (FaultKind × Nat)
  | .ret => if s.sp.val = 0 then some (.outOfBounds .stackUnderflow, 0) else none
  | .call _ => if s.sp.val = 16 then some (.outOfBounds .stackOverflow, 16) else none
  | .sys nnn => some (.unimplementedOpcode, nnn.toNat)
  | .skp x | .sknp x =>
    if (s.reg x).toNat > 15 then some (.outOfBounds .keyIndex, (s.reg x).toNat) else none
  | .ldBVx _ =>
    if s.i.toNat + 2 > 0xFFF then some (.outOfBounds .memoryAccess, max s.i.toNat 0x1000) else none
  | .ldMemVx x | .ldVxMem x =>
    if s.i.toNat + x.val > 0xFFF then some (.outOfBounds .memoryAccess, max s.i.toNat 0x1000) else none
  | .drw _ _ n =>
    if 0 < n.toNat ∧ s.i.toNat + n.toNat - 1 > 0xFFF then
      some (.outOfBounds .memoryAccess, max s.i.toNat 0x1000)
    else none
  | .cls | .jp _ | .seImm _ _ | .sneImm _ _ | .seReg _ _ | .ldImm _ _ | .addImm _ _ | .ldReg _ _ | .orReg _ _
  | .andReg _ _ | .xorReg _ _ | .addReg _ _ | .subReg _ _ | .shrReg _ _ | .subnReg _ _ | .shlReg _ _ | .sneReg _ _
  | .ldI _ | .jpV0 _ | .rnd _ _ | .ldVxDt _ | .ldVxK _ | .ldDtVx _ | .ldStVx _ | .addIVx _ | .ldFVx _ => none

/-- The words that R46 lists as unknown, by their opcode nibble, low nibble and low byte. -/
abbrev UnknownWord (w : Word) : Prop :=
  (w.toNat / 4096 = 0x5 ∧ w.toNat % 16 ≠ 0) ∨ (w.toNat / 4096 = 0x9 ∧ w.toNat % 16 ≠ 0) ∨
  (w.toNat / 4096 = 0x8 ∧ w.toNat % 16 ∈ [0x8, 0x9, 0xA, 0xB, 0xC, 0xD, 0xF]) ∨
  (w.toNat / 4096 = 0xE ∧ w.toNat % 256 ∉ [0x9E, 0xA1]) ∨
  (w.toNat / 4096 = 0xF ∧ w.toNat % 256 ∉ [0x07, 0x0A, 0x15, 0x18, 0x1E, 0x29, 0x33, 0x55, 0x65])

/-- Dxyn's sprite has a set bit on cell `c`: some row below n and column below 8 whose bit of the byte at I + row is 1,
and whose index `((Vx + col) + (Vy + row) * 64) mod 2048` is `c` (R78, R80). -/
def SpriteTouches (s : State) (x y : RegIx) (n : Nibble) (c : Nat) : Prop :=
  ∃ row < n.toNat, ∃ col < 8, (s.readByte (s.blockAddr row)).toNat / 2 ^ (7 - col) % 2 = 1 ∧
    (((s.reg x).toNat + col) + ((s.reg y).toNat + row) * 64) % 2048 = c

/-- `s` after a fault of the step that was to run the instruction at `pc`: as before the step but for `draw` and
`fault` (R91). -/
def State.faultedAt (s : State) (kind : FaultKind) (word : Option Word) (pc : Word) (info : Nat) : State :=
  { s with pc := pc, draw := false, fault := some { kind := kind, word := word, pc := pc, info := info } }

/-- The invariant every transaction keeps: memory in canonical form, the pc no higher than any rule can take it (R12),
the stack's return addresses no higher than a CALL can push (R51). -/
structure CoreInv (s : State) : Prop where
  memory : Memory.wf s.font s.mem
  pc : s.pc.toNat ≤ 0x10FE
  stack : ∀ k : Fin 16, s.stack[k.val].toNat ≤ 0x1000

/-- A core that is halted (R92, R116 "Faulted"). -/
def Halted (s : State) : Prop := s.fault ≠ none

/-- "Idle at A": no fault, the pc at A, and the word at A jumps to A (R116). -/
def IdleAt (a : Addr) (s : State) : Prop :=
  s.fault = none ∧ s.pc = zext16 a ∧ s.fetchWord = some (0x1#4 ++ a : Word)

/-- "Waiting at A": no fault, the pc at A, the word at A is Fx0A, and no key is pressed (R116). -/
def WaitingAt (a : Addr) (s : State) : Prop :=
  s.fault = none ∧ s.pc = zext16 a ∧ (∃ x : Nibble, s.fetchWord = some (0xF#4 ++ x ++ 0x0A#8 : Word)) ∧
    ∀ k : Fin 16, s.key[k.val] = false

/-- A safe step: it answers a next state in which the core is not halted. -/
def SafeStep (s : State) : Prop := ∃ t, step s = .next t ∧ t.fault = none

end Sys2Proof.Machine
end

