-- ==== Sys2Proof/Certificates/Slice0/Obligations.lean ====
section
/-! DEFINITION. The statements for the provers, from the numbered rules of the spec. Each docstring names the rule. A
statement about an instruction says first which word decodes to it, then that `exec` answers a next state, what that
state holds, and what is left unchanged; in `exec`, `pc` is the instruction's own address plus 2 (R40). -/

open Sys2Proof Sys2Proof.Machine

/-- R26: every piece of state after `new`, for every setting of the parameters (that there is a fault status, none at
reset, is the spec's own decision D10). `State.reset` is `new` of the open parameters of Config. R96, R105: the host's
`new` on any core, halted or not, leaves that same state: nothing of the old core survives (the spec's own decision
D29). The two fields of the free draw are no state of the core (log entry 3), so nothing is said of them. -/
def Obligations.NewCoreHoldsResetValues : Prop :=
  ∀ (sq lq : Bool) (font : Vector Byte 80),
    let s := State.new sq lq font
    (∀ (a : Nat) (h : a < 80), s.readByte a = font[a]) ∧ (∀ a, 80 ≤ a → s.readByte a = 0) ∧
    (∀ r, s.reg r = 0) ∧ s.i = 0 ∧ s.pc = 0x200 ∧ (∀ k : Fin 16, s.stack[k.val] = 0) ∧ s.sp.val = 0 ∧
    s.dt = 0 ∧ s.st = 0 ∧ (∀ k : Fin 16, s.key[k.val] = false) ∧ (∀ c, s.cell c = false) ∧
    s.draw = false ∧ s.fault = none ∧ s.shiftQuirk = sq ∧ s.loadStoreQuirk = lq ∧ s.font = font ∧
    State.reset = State.new Config.shiftQuirk Config.loadStoreQuirk Config.fontTable ∧
    ∀ old : State, ∃ r d, transact (.new sq lq font) old = (.nothing, { s with random := r, draws := d })

/-- The invariant holds of every new core and of the reset state. -/
def Obligations.NewCoreMeetsInvariant : Prop :=
  (∀ sq lq font, CoreInv (State.new sq lq font)) ∧ CoreInv State.reset

/-- Every step, from every state that meets the invariant, keeps it: memory stays canonical, the pc stays at most
0x10FE (R12), every stack slot at most 0x1000 (R51). -/
def Obligations.StepKeepsInvariant : Prop :=
  ∀ s t, CoreInv s → step s = .next t → CoreInv t

/-- The same for every host schedule of transactions (R7, R112). -/
def Obligations.EveryScheduleKeepsInvariant : Prop :=
  ∀ (ts : List Transaction) (s : State), CoreInv s → CoreInv (runTransactions ts s)

/-- No step stops: a fault of the core is a next state (R91) and a halted core's step is one too (R92). -/
def Obligations.EveryStepAnswersNextState : Prop :=
  ∀ s, ∃ t, step s = .next t

/-- R40: when the two bytes at the pc decode to an instruction, the step is its execution with the pc past it and
`draw` at its default. -/
def Obligations.StepRunsDecodedInstruction : Prop :=
  ∀ (s : State) (i : Instr) (rest : List Byte), s.fault = none → s.pc.toNat < 0xFFF →
    decode [s.readByte s.pc.toNat, s.readByte (s.pc.toNat + 1)] = .ok (i, rest) →
    i.wellFormed = true ∧ rest = [] ∧ step s = exec i { s with pc := s.pc + 2, draw := false }

/-- Decoding the bytes of any well-formed instruction gives it back, with every operand, and leaves the bytes after
it (R41, R44). -/
def Obligations.DecodeOfEncodedInstruction : Prop :=
  ∀ (i : Instr) (rest : List Byte), i.wellFormed = true → decode (bytesOfWord (encode i) ++ rest) = .ok (i, rest)

/-- A word that decodes is the encoding of what it decodes to, which is well formed: no two words share an
instruction, and no bit of a word is dropped (R44). -/
def Obligations.EncodeOfDecodedWord : Prop :=
  ∀ (w : Word) (i : Instr), decodeWord w = .ok i → encode i = w ∧ i.wellFormed = true

/-- Words written out from the encodings of the spec, one per family and format (R44). -/
def Obligations.WrittenOutWordsDecode : Prop :=
  decodeWord 0b0000000011100000#16 = .ok .cls ∧
  decodeWord 0b0000000011101110#16 = .ok .ret ∧
  decodeWord 0b0000000100100011#16 = .ok (.sys 0x123#12) ∧
  decodeWord 0b0001001000101000#16 = .ok (.jp 0x228#12) ∧
  decodeWord 0b0100001100010001#16 = .ok (.sneImm 3 0x11#8) ∧
  decodeWord 0b1000000100100111#16 = .ok (.subnReg 1 2) ∧
  decodeWord 0b1010001100000000#16 = .ok (.ldI 0x300#12) ∧
  decodeWord 0b1101000000010010#16 = .ok (.drw 0 1 0x2#4) ∧
  decodeWord 0b1110010110011110#16 = .ok (.skp 5) ∧
  decodeWord 0b1111001000011110#16 = .ok (.addIVx 2) ∧
  decodeWord 0b0101000100100001#16 = .error (.unknownOpcode 0x5121#16)

/-- R46: a word decodes to nothing exactly where the rule lists it (the full patterns: the spec's own decision D19),
and every other word is an instruction (R47). -/
def Obligations.UnknownWordsAreTheListedOnes : Prop :=
  ∀ w : Word, (decodeWord w = .error (.unknownOpcode w) ↔ UnknownWord w) ∧
    (¬ UnknownWord w → ∃ i, decodeWord w = .ok i)

/-- R45, R57: of the words with top nibble 0, two are CLS and RET and every other is SYS, which raises
UnimplementedOpcode with its word. The record is the spec's own (D10, D11). -/
def Obligations.SysWordsRaiseUnimplemented : Prop :=
  ∀ nnn : Addr,
    (nnn = 0x0E0#12 → decodeWord (0x0#4 ++ nnn) = .ok .cls) ∧
    (nnn = 0x0EE#12 → decodeWord (0x0#4 ++ nnn) = .ok .ret) ∧
    (nnn ≠ 0x0E0#12 → nnn ≠ 0x0EE#12 →
      decodeWord (0x0#4 ++ nnn) = .ok (.sys nnn) ∧
      (∀ s, exec (.sys nnn) s =
        .next (s.faultedAt .unimplementedOpcode (some (0x0#4 ++ nnn)) (s.pc - 2) nnn.toNat)) ∧
      (∀ s, s.fault = none → s.fetchWord = some (0x0#4 ++ nnn) →
        step s = .next (s.faultedAt .unimplementedOpcode (some (0x0#4 ++ nnn)) s.pc nnn.toNat)))

/-- R88, R46: an unknown word faults at decode, before any execute effect, with the record of R87 (the spec's own,
D10, D11). -/
def Obligations.UnknownWordFaults : Prop :=
  ∀ (s : State) (w : Word), s.fault = none → s.fetchWord = some w → UnknownWord w →
    step s = .next (s.faultedAt .unknownOpcode (some w) s.pc w.toNat)

/-- R32: the fetch is big-endian, and at a pc of 0xFFF or more it faults before any other effect of the step (the
spec's own decision D7). -/
def Obligations.FetchIsBigEndianOrFaults : Prop :=
  ∀ s : State,
    (s.pc.toNat < 0xFFF → ∃ w, s.fetchWord = some w ∧
      w.toNat = (s.readByte s.pc.toNat).toNat * 256 + (s.readByte (s.pc.toNat + 1)).toNat) ∧
    (s.fault = none → 0xFFF ≤ s.pc.toNat →
      step s = .next (s.faultedAt (.outOfBounds .fetch) none s.pc s.pc.toNat))

/-- R92: a halted core's step makes no change and reports the same fault, `load_program` is refused, the timers, the
keys and the reads act as they do on a core that is not halted, and of all transactions only `new` clears the fault.
(Operations on a halted core are the spec's own decision D16.) -/
def Obligations.HaltedCoreOnlyNewRecovers : Prop :=
  ∀ (s : State) (r : FaultRecord), s.fault = some r →
    step s = .next s ∧
    (∀ b, transact (.step b) s = (.stepped s.draw (some r), s)) ∧
    (∀ bytes, transact (.loadProgram bytes) s = (.loadRefused, s)) ∧
    (∀ t, t ∈ [Transaction.tickTimers, .readFramebuffer, .readDraw, .readSound, .readDelayTimer] ∨
        (∃ k, t = .keyDown k ∨ t = .keyUp k) →
      transact t s = ((transact t { s with fault := none }).1,
        { (transact t { s with fault := none }).2 with fault := some r })) ∧
    transact .readFault s = (.fault (some r), s) ∧
    (∀ t, (transact t s).2.fault = some r ∨ ∃ sq lq font, t = .new sq lq font ∧ (transact t s).2.fault = none)

/-- R91: a step that raises leaves everything as before the step but `fault` and `draw`, the record holds the
faulting instruction's address, and a `load_program` that raises sets the record and changes nothing else. (Precise
faults are the spec's own decision D10; that a `load_program` fault leaves `draw` alone: log entry 6.) -/
def Obligations.FaultsArePrecise : Prop :=
  (∀ s t, s.fault = none → step s = .next t → t.fault ≠ none →
    t = { s with draw := false, fault := t.fault } ∧ ∃ r, t.fault = some r ∧ r.pc = s.pc) ∧
  (∀ (s t : State) (bytes : List Byte) (r : FaultRecord), s.fault = none →
    transact (.loadProgram bytes) s = (.loadFault r, t) → t = { s with fault := some r })

/-- R87, R90, R93: where the table of R87 says that an instruction faults, executing it is that fault: the record
with the kind, the word, the instruction's address and the payload, and no other write. (The spec's own decisions D7
to D11.) -/
def Obligations.InstructionFaultsAsTabled : Prop :=
  ∀ (i : Instr) (s : State) (k : FaultKind) (info : Nat), faultOf s i = some (k, info) →
    exec i s = .next (s.faultedAt k (some (encode i)) (s.pc - 2) info)

/-- R87: the codes 1 to 8 of the table (the spec's own labels, D11), one for each kind and sub-kind, so that a code
names its kind. -/
def Obligations.FaultCodesNameTheirKinds : Prop :=
  FaultKind.unknownOpcode.code = 1 ∧ FaultKind.unimplementedOpcode.code = 2 ∧
  (FaultKind.outOfBounds .programLoad).code = 3 ∧ (FaultKind.outOfBounds .stackOverflow).code = 4 ∧
  (FaultKind.outOfBounds .stackUnderflow).code = 5 ∧ (FaultKind.outOfBounds .memoryAccess).code = 6 ∧
  (FaultKind.outOfBounds .fetch).code = 7 ∧ (FaultKind.outOfBounds .keyIndex).code = 8 ∧
  (∀ k k' : FaultKind, k.code = k'.code → k = k') ∧ (∀ k : FaultKind, 1 ≤ k.code ∧ k.code ≤ 8)

/-- R6: an instruction that raises no fault completes and writes only the pieces its rule names; across the whole
step the pc and the draw signal may change as well. (The frame rule is the spec's own decision D22.) -/
def Obligations.InstructionWritesOnlyItsPieces : Prop :=
  (∀ (i : Instr) (s : State), faultOf s i = none →
    ∃ t, exec i s = .next t ∧ OnlyWrites (writes s.shiftQuirk s.loadStoreQuirk i) s t) ∧
  (∀ (i : Instr) (s : State) (w : Word), s.fault = none → s.fetchWord = some w → decodeWord w = .ok i →
    faultOf s i = none →
    ∃ t, step s = .next t ∧ OnlyWrites (.pc :: .draw :: writes s.shiftQuirk s.loadStoreQuirk i) s t)

/-- R50, R56: JP goes to nnn, JP V0 to nnn + V0 without truncation. -/
def Obligations.JumpsReachTheirTargets : Prop :=
  ∀ (nnn : Addr) (s : State),
    decodeWord (0x1#4 ++ nnn) = .ok (.jp nnn) ∧ decodeWord (0xB#4 ++ nnn) = .ok (.jpV0 nnn) ∧
    (∃ t, exec (.jp nnn) s = .next t ∧ t.pc.toNat = nnn.toNat ∧ OnlyWrites [.pc] s t) ∧
    (∃ t, exec (.jpV0 nnn) s = .next t ∧ t.pc.toNat = nnn.toNat + (s.reg 0).toNat ∧ OnlyWrites [.pc] s t)

/-- R52, R53, R54, R55: each skip passes two bytes exactly where its comparison holds. -/
def Obligations.ComparisonSkipsPassTwoBytes : Prop :=
  ∀ (x y : RegIx) (nn : Byte) (s : State),
    decodeWord (0x3#4 ++ regBits x ++ nn) = .ok (.seImm x nn) ∧
    decodeWord (0x4#4 ++ regBits x ++ nn) = .ok (.sneImm x nn) ∧
    decodeWord (0x5#4 ++ regBits x ++ regBits y ++ 0x0#4) = .ok (.seReg x y) ∧
    decodeWord (0x9#4 ++ regBits x ++ regBits y ++ 0x0#4) = .ok (.sneReg x y) ∧
    (∃ t, exec (.seImm x nn) s = .next t ∧ OnlyWrites [.pc] s t ∧
      t.pc = if s.reg x = nn then s.pc + 2 else s.pc) ∧
    (∃ t, exec (.sneImm x nn) s = .next t ∧ OnlyWrites [.pc] s t ∧
      t.pc = if s.reg x ≠ nn then s.pc + 2 else s.pc) ∧
    (∃ t, exec (.seReg x y) s = .next t ∧ OnlyWrites [.pc] s t ∧
      t.pc = if s.reg x = s.reg y then s.pc + 2 else s.pc) ∧
    (∃ t, exec (.sneReg x y) s = .next t ∧ OnlyWrites [.pc] s t ∧
      t.pc = if s.reg x ≠ s.reg y then s.pc + 2 else s.pc)

/-- R51: CALL pushes the address of the CALL plus 2 and jumps; at SP = 16 it raises StackOverflow (the spec's own
decision D9). -/
def Obligations.CallPushesReturnAddress : Prop :=
  ∀ (nnn : Addr) (s : State),
    decodeWord (0x2#4 ++ nnn) = .ok (.call nnn) ∧
    (∀ h : s.sp.val < 16, ∃ t, exec (.call nnn) s = .next t ∧ t.stack[s.sp.val] = s.pc ∧
      (∀ k : Fin 16, k.val ≠ s.sp.val → t.stack[k.val] = s.stack[k.val]) ∧ t.sp.val = s.sp.val + 1 ∧
      t.pc.toNat = nnn.toNat ∧ OnlyWrites [.pc, .stack, .sp] s t) ∧
    (s.sp.val = 16 → exec (.call nnn) s =
      .next (s.faultedAt (.outOfBounds .stackOverflow) (some (0x2#4 ++ nnn)) (s.pc - 2) 16))

/-- R49: RET lowers SP and goes to the slot there, which keeps its value; at SP = 0 it raises StackUnderflow (the
spec's own decision D9). -/
def Obligations.RetPopsReturnAddress : Prop :=
  ∀ s : State,
    decodeWord 0x00EE#16 = .ok .ret ∧
    (∀ h : 0 < s.sp.val, ∃ t, exec .ret s = .next t ∧ t.sp.val + 1 = s.sp.val ∧
      t.pc = s.stack[s.sp.val - 1] ∧ OnlyWrites [.pc, .sp] s t) ∧
    (s.sp.val = 0 → exec .ret s =
      .next (s.faultedAt (.outOfBounds .stackUnderflow) (some 0x00EE#16) (s.pc - 2) 0))

/-- R49, R51 (the source's §8): after a CALL, a RET resumes at the instruction after it, whatever the callee did to
anything but the call stack. -/
def Obligations.CallThenRetReturns : Prop :=
  ∀ (nnn : Addr) (s : State), s.sp.val < 16 →
    ∃ t, exec (.call nnn) s = .next t ∧
      ∀ t' : State, t'.stack = t.stack → t'.sp = t.sp →
        ∃ u, exec .ret t' = .next u ∧ u.pc = s.pc ∧ u.sp = s.sp ∧ OnlyWrites [.pc, .sp] t' u

/-- R59, R60, R61: LD Vx, nn; ADD Vx, nn, which wraps and writes no flag; LD Vx, Vy. -/
def Obligations.LoadsAndAddImmediate : Prop :=
  ∀ (x y : RegIx) (nn : Byte) (s : State),
    decodeWord (0x6#4 ++ regBits x ++ nn) = .ok (.ldImm x nn) ∧
    decodeWord (0x7#4 ++ regBits x ++ nn) = .ok (.addImm x nn) ∧
    decodeWord (0x8#4 ++ regBits x ++ regBits y ++ 0x0#4) = .ok (.ldReg x y) ∧
    (∃ t, exec (.ldImm x nn) s = .next t ∧ t.reg x = nn ∧ OnlyWrites [.reg x] s t) ∧
    (∃ t, exec (.addImm x nn) s = .next t ∧ (t.reg x).toNat = ((s.reg x).toNat + nn.toNat) % 256 ∧
      OnlyWrites [.reg x] s t) ∧
    (∃ t, exec (.ldReg x y) s = .next t ∧ t.reg x = s.reg y ∧ OnlyWrites [.reg x] s t)

/-- R62, R63, R64: OR, AND and XOR bit by bit; no flag is written. -/
def Obligations.BitwiseOperations : Prop :=
  ∀ (x y : RegIx) (s : State),
    decodeWord (0x8#4 ++ regBits x ++ regBits y ++ 0x1#4) = .ok (.orReg x y) ∧
    decodeWord (0x8#4 ++ regBits x ++ regBits y ++ 0x2#4) = .ok (.andReg x y) ∧
    decodeWord (0x8#4 ++ regBits x ++ regBits y ++ 0x3#4) = .ok (.xorReg x y) ∧
    (∃ t, exec (.orReg x y) s = .next t ∧ OnlyWrites [.reg x] s t ∧
      ∀ k < 8, (t.reg x).getLsbD k = ((s.reg x).getLsbD k || (s.reg y).getLsbD k)) ∧
    (∃ t, exec (.andReg x y) s = .next t ∧ OnlyWrites [.reg x] s t ∧
      ∀ k < 8, (t.reg x).getLsbD k = ((s.reg x).getLsbD k && (s.reg y).getLsbD k)) ∧
    (∃ t, exec (.xorReg x y) s = .next t ∧ OnlyWrites [.reg x] s t ∧
      ∀ k < 8, (t.reg x).getLsbD k = ((s.reg x).getLsbD k ^^ (s.reg y).getLsbD k))

/-- R65: ADD Vx, Vy with the carry in VF, and each corner case where x or y is 0xF (their order of writes and reads
is the spec's own decision D4). -/
def Obligations.AddSetsCarry : Prop :=
  ∀ (x y : RegIx) (s : State),
    decodeWord (0x8#4 ++ regBits x ++ regBits y ++ 0x4#4) = .ok (.addReg x y) ∧
    ∃ t, exec (.addReg x y) s = .next t ∧ OnlyWrites [.reg x, .reg vF] s t ∧
      (x ≠ vF → y ≠ vF → (t.reg x).toNat = ((s.reg x).toNat + (s.reg y).toNat) % 256 ∧
        t.reg vF = if (s.reg x).toNat + (s.reg y).toNat > 255 then 1 else 0) ∧
      (x = vF → y ≠ vF → t.reg vF = s.reg y) ∧
      (x ≠ vF → y = vF → t.reg x = s.reg x ∧ t.reg vF = 0) ∧
      (x = vF → y = vF → t.reg vF = 0)

/-- R66: SUB Vx, Vy with NOT borrow in VF, and each corner case where x or y is 0xF (the spec's own decision D4). -/
def Obligations.SubSetsNotBorrow : Prop :=
  ∀ (x y : RegIx) (s : State),
    decodeWord (0x8#4 ++ regBits x ++ regBits y ++ 0x5#4) = .ok (.subReg x y) ∧
    ∃ t, exec (.subReg x y) s = .next t ∧ OnlyWrites [.reg x, .reg vF] s t ∧
      (x ≠ vF → y ≠ vF → (t.reg x).toNat = ((s.reg x).toNat + 256 - (s.reg y).toNat) % 256 ∧
        t.reg vF = if (s.reg x).toNat < (s.reg y).toNat then 0 else 1) ∧
      (x = vF → y ≠ vF → (t.reg vF).toNat = (1 + 256 - (s.reg y).toNat) % 256) ∧
      (x ≠ vF → y = vF → (s.reg x = 0 → t.reg vF = 0 ∧ t.reg x = 0xFF) ∧
        (s.reg x ≠ 0 → t.reg vF = 1 ∧ (t.reg x).toNat + 1 = (s.reg x).toNat)) ∧
      (x = vF → y = vF → t.reg vF = 0)

/-- R68: SUBN Vx, Vy, Vy minus Vx into Vx, with NOT borrow in VF, and each corner case where x or y is 0xF (the
spec's own decision D4). -/
def Obligations.SubnSetsNotBorrow : Prop :=
  ∀ (x y : RegIx) (s : State),
    decodeWord (0x8#4 ++ regBits x ++ regBits y ++ 0x7#4) = .ok (.subnReg x y) ∧
    ∃ t, exec (.subnReg x y) s = .next t ∧ OnlyWrites [.reg x, .reg vF] s t ∧
      (x ≠ vF → y ≠ vF → (t.reg x).toNat = ((s.reg y).toNat + 256 - (s.reg x).toNat) % 256 ∧
        t.reg vF = if (s.reg y).toNat < (s.reg x).toNat then 0 else 1) ∧
      (x = vF → y ≠ vF → (t.reg vF).toNat = ((s.reg y).toNat + 256 - 1) % 256) ∧
      (x ≠ vF → y = vF → (t.reg x).toNat = (1 + 256 - (s.reg x).toNat) % 256 ∧
        t.reg vF = if 2 ≤ (s.reg x).toNat then 0 else 1) ∧
      (x = vF → y = vF → t.reg vF = 0)

/-- R67: SHR Vx, Vy under either setting of SHIFT_QUIRK, and each corner case where x or y is 0xF (the spec's own
decisions D1, D4). -/
def Obligations.ShiftRightFollowsQuirk : Prop :=
  ∀ (x y : RegIx) (s : State),
    decodeWord (0x8#4 ++ regBits x ++ regBits y ++ 0x6#4) = .ok (.shrReg x y) ∧
    (s.shiftQuirk = true → ∃ t, exec (.shrReg x y) s = .next t ∧ OnlyWrites [.reg x, .reg vF] s t ∧
      (x ≠ vF → (t.reg x).toNat = (s.reg x).toNat / 2 ∧ (t.reg vF).toNat = (s.reg x).toNat % 2) ∧
      (x = vF → t.reg vF = 0)) ∧
    (s.shiftQuirk = false → ∃ t, exec (.shrReg x y) s = .next t ∧ OnlyWrites [.reg x, .reg y, .reg vF] s t ∧
      (x ≠ vF → y ≠ vF → (t.reg y).toNat = (s.reg y).toNat / 2 ∧ t.reg x = t.reg y ∧
        (t.reg vF).toNat = (s.reg y).toNat % 2) ∧
      (x ≠ vF → y = vF → t.reg vF = 0 ∧ t.reg x = 0) ∧
      (x = vF → y ≠ vF → (t.reg y).toNat = (s.reg y).toNat / 2 ∧ t.reg vF = t.reg y) ∧
      (x = vF → y = vF → t.reg vF = 0))

/-- R69: SHL Vx, Vy under either setting of SHIFT_QUIRK, and each corner case where x or y is 0xF (the spec's own
decisions D1, D4, D24). -/
def Obligations.ShiftLeftFollowsQuirk : Prop :=
  ∀ (x y : RegIx) (s : State),
    decodeWord (0x8#4 ++ regBits x ++ regBits y ++ 0xE#4) = .ok (.shlReg x y) ∧
    (s.shiftQuirk = true → ∃ t, exec (.shlReg x y) s = .next t ∧ OnlyWrites [.reg x, .reg vF] s t ∧
      (x ≠ vF → (t.reg x).toNat = (s.reg x).toNat * 2 % 256 ∧ (t.reg vF).toNat = (s.reg x).toNat / 128) ∧
      (x = vF → (t.reg vF).toNat = (s.reg vF).toNat / 128 * 2)) ∧
    (s.shiftQuirk = false → ∃ t, exec (.shlReg x y) s = .next t ∧ OnlyWrites [.reg x, .reg y, .reg vF] s t ∧
      (x ≠ vF → y ≠ vF → (t.reg y).toNat = (s.reg y).toNat * 2 % 256 ∧ t.reg x = t.reg y ∧
        (t.reg vF).toNat = (s.reg y).toNat / 128) ∧
      (x ≠ vF → y = vF → (t.reg vF).toNat = (s.reg vF).toNat / 128 * 2 ∧ t.reg x = t.reg vF) ∧
      (x = vF → y ≠ vF → (t.reg y).toNat = (s.reg y).toNat * 2 % 256 ∧ t.reg vF = t.reg y) ∧
      (x = vF → y = vF → (t.reg vF).toNat = (s.reg vF).toNat / 128 * 2))

/-- R70: RND Vx, nn masks the byte at the RANDOM input, for every value r of it (the spec's own decision D14); and the
input that the next execution takes does not depend on r. (That it is `Config.randomByte` of a counter is the model's
form of a free value, log entry 3.) R96: the `step` transaction of a running core at a Cxnn masks the byte the host
presents, whatever byte the state held, and reports the draw signal and the fault status of the state after it. -/
def Obligations.RandomByteIsMasked : Prop :=
  ∀ (x : RegIx) (nn : Byte) (s : State),
    decodeWord (0xC#4 ++ regBits x ++ nn) = .ok (.rnd x nn) ∧
    (∀ r : Byte, ∃ t, exec (.rnd x nn) { s with random := r } = .next t ∧ t.reg x = r &&& nn ∧
      OnlyWrites [.reg x, .freeDraw] { s with random := r } t) ∧
    (∀ r r' t t', exec (.rnd x nn) { s with random := r } = .next t →
      exec (.rnd x nn) { s with random := r' } = .next t' → t.random = t'.random) ∧
    (s.fault = none → s.fetchWord = some (0xC#4 ++ regBits x ++ nn) → ∀ r : Byte, ∃ t,
      transact (.step r) s = (.stepped t.draw t.fault, t) ∧ t.reg x = r &&& nn ∧ t.pc = s.pc + 2 ∧
      t.draw = false ∧ t.fault = none ∧ OnlyWrites [.pc, .draw, .reg x, .freeDraw] s t)

/-- R73: LD F, Vx, which masks nothing; and LD I, nnn (R71, whose remark that only Fx1E takes I above 0xFFF is at
odds with R75: log entry 17). -/
def Obligations.AddressRegisterLoads : Prop :=
  ∀ (nnn : Addr) (x : RegIx) (s : State),
    decodeWord (0xA#4 ++ nnn) = .ok (.ldI nnn) ∧
    decodeWord (0xF#4 ++ regBits x ++ 0x29#8) = .ok (.ldFVx x) ∧
    (∃ t, exec (.ldI nnn) s = .next t ∧ t.i.toNat = nnn.toNat ∧ OnlyWrites [.i] s t) ∧
    (∃ t, exec (.ldFVx x) s = .next t ∧ t.i.toNat = (s.reg x).toNat * 5 ∧ OnlyWrites [.i] s t)

/-- R72: ADD I, Vx; that a sum past 0xFFFF wraps is the spec's own decision D3. No flag is written. -/
def Obligations.AddToAddressRegisterWraps : Prop :=
  ∀ (x : RegIx) (s : State),
    decodeWord (0xF#4 ++ regBits x ++ 0x1E#8) = .ok (.addIVx x) ∧
    ∃ t, exec (.addIVx x) s = .next t ∧ t.i.toNat = (s.i.toNat + (s.reg x).toNat) % 65536 ∧ OnlyWrites [.i] s t

/-- R74: LD B, Vx stores the hundreds, tens and ones at I, I + 1, I + 2 and no other byte, or faults (the spec's own
decision D7). -/
def Obligations.DecimalDigitsAreStored : Prop :=
  ∀ (x : RegIx) (s : State),
    decodeWord (0xF#4 ++ regBits x ++ 0x33#8) = .ok (.ldBVx x) ∧
    (s.i.toNat + 2 ≤ 0xFFF → ∃ t, exec (.ldBVx x) s = .next t ∧
      (t.readByte (s.blockAddr 0)).toNat = (s.reg x).toNat / 100 ∧
      (t.readByte (s.blockAddr 1)).toNat = (s.reg x).toNat / 10 % 10 ∧
      (t.readByte (s.blockAddr 2)).toNat = (s.reg x).toNat % 10 ∧
      (∀ a, a < s.blockAddr 0 ∨ s.blockAddr 2 < a → t.readByte a = s.readByte a) ∧ OnlyWrites [.mem] s t) ∧
    (s.i.toNat + 2 > 0xFFF → exec (.ldBVx x) s =
      .next (s.faultedAt (.outOfBounds .memoryAccess) (some (0xF#4 ++ regBits x ++ 0x33#8)) (s.pc - 2)
        (max s.i.toNat 0x1000)))

/-- R75: LD [I], Vx stores V0 to Vx at I upward and no other byte, and advances I by x + 1 exactly when
LOADSTORE_QUIRK is false; or it faults and stores nothing (the spec's own decisions D1, D7). -/
def Obligations.RegistersAreStored : Prop :=
  ∀ (x : RegIx) (s : State),
    decodeWord (0xF#4 ++ regBits x ++ 0x55#8) = .ok (.ldMemVx x) ∧
    (s.i.toNat + x.val ≤ 0xFFF → ∃ t, exec (.ldMemVx x) s = .next t ∧
      (∀ k : RegIx, k ≤ x → t.readByte (s.blockAddr k.val) = s.reg k) ∧
      (∀ a, a < s.blockAddr 0 ∨ s.blockAddr x.val < a → t.readByte a = s.readByte a) ∧
      t.i.toNat = (if s.loadStoreQuirk then s.i.toNat else s.i.toNat + x.val + 1) ∧
      OnlyWrites [.mem, .i] s t) ∧
    (s.i.toNat + x.val > 0xFFF → exec (.ldMemVx x) s =
      .next (s.faultedAt (.outOfBounds .memoryAccess) (some (0xF#4 ++ regBits x ++ 0x55#8)) (s.pc - 2)
        (max s.i.toNat 0x1000)))

/-- R76: LD Vx, [I] loads V0 to Vx from I upward and no other register, and advances I as Fx55 does; or it faults
(the spec's own decisions D1, D7). -/
def Obligations.RegistersAreLoaded : Prop :=
  ∀ (x : RegIx) (s : State),
    decodeWord (0xF#4 ++ regBits x ++ 0x65#8) = .ok (.ldVxMem x) ∧
    (s.i.toNat + x.val ≤ 0xFFF → ∃ t, exec (.ldVxMem x) s = .next t ∧
      (∀ k : RegIx, t.reg k = if k ≤ x then s.readByte (s.blockAddr k.val) else s.reg k) ∧
      t.i.toNat = (if s.loadStoreQuirk then s.i.toNat else s.i.toNat + x.val + 1) ∧
      OnlyWrites (.i :: (List.finRange 16).map Piece.reg) s t) ∧
    (s.i.toNat + x.val > 0xFFF → exec (.ldVxMem x) s =
      .next (s.faultedAt (.outOfBounds .memoryAccess) (some (0xF#4 ++ regBits x ++ 0x65#8)) (s.pc - 2)
        (max s.i.toNat 0x1000)))

/-- R75, R76 (the source's §8): Fx55 and then Fx65 with the same x and I give V0 to Vx back, whatever the registers
held in between. -/
def Obligations.StoreThenLoadRoundTrips : Prop :=
  ∀ (x : RegIx) (s : State), s.i.toNat + x.val ≤ 0xFFF →
    ∃ t, exec (.ldMemVx x) s = .next t ∧
      ∀ t' : State, t'.i = s.i → (∀ a, t'.readByte a = t.readByte a) →
        ∃ u, exec (.ldVxMem x) t' = .next u ∧ ∀ k : RegIx, k ≤ x → u.reg k = s.reg k

/-- R39: a byte pair that Fx55 stored is the word that a later fetch at its address reads, with no fence. -/
def Obligations.FetchSeesStores : Prop :=
  ∀ (x : RegIx) (s : State) (k : Nat), k + 1 ≤ x.val → s.i.toNat + x.val ≤ 0xFFF →
    ∃ t, exec (.ldMemVx x) s = .next t ∧
      ∀ u : State, (∀ a, u.readByte a = t.readByte a) → u.pc.toNat = s.i.toNat + k →
        ∀ (lo hi : RegIx), hi.val = k → lo.val = k + 1 → u.fetchWord = some (s.reg hi ++ s.reg lo)

/-- R79: CLS clears every cell and sets the draw signal. -/
def Obligations.ClearBlanksTheDisplay : Prop :=
  ∀ s : State,
    decodeWord 0x00E0#16 = .ok .cls ∧
    ∃ t, exec .cls s = .next t ∧ (∀ c, t.cell c = false) ∧ t.draw = true ∧ OnlyWrites [.fb, .draw] s t

/-- R80, R77, R78: DRW changes exactly the cells its sprite touches, VF is 1 exactly when one of them was 1 before,
the draw signal is set; or it faults where the sprite leaves memory. (The spec's own decisions: the position read
before VF is cleared, D5; bit 7 leftmost, D6; the fault, D7; the index in integer arithmetic, D23.) -/
def Obligations.DrawTogglesTouchedCells : Prop :=
  ∀ (x y : RegIx) (n : Nibble) (s : State),
    decodeWord (0xD#4 ++ regBits x ++ regBits y ++ n) = .ok (.drw x y n) ∧
    (n.toNat = 0 ∨ s.i.toNat + n.toNat - 1 ≤ 0xFFF → ∃ t, exec (.drw x y n) s = .next t ∧
      (∀ c < 2048, t.cell c ≠ s.cell c ↔ SpriteTouches s x y n c) ∧
      ((∃ c < 2048, SpriteTouches s x y n c ∧ s.cell c = true) → t.reg vF = 1) ∧
      ((∀ c < 2048, SpriteTouches s x y n c → s.cell c = false) → t.reg vF = 0) ∧
      t.draw = true ∧ OnlyWrites [.reg vF, .fb, .draw] s t) ∧
    (n.toNat ≠ 0 → s.i.toNat + n.toNat - 1 > 0xFFF → exec (.drw x y n) s =
      .next (s.faultedAt (.outOfBounds .memoryAccess) (some (0xD#4 ++ regBits x ++ regBits y ++ n)) (s.pc - 2)
        (max s.i.toNat 0x1000)))

/-- R80 (the source's §8): drawing the same sprite twice at the same position restores the framebuffer; the second
draw gives VF = 1 where a touched cell was 0 before the first. (R80's sentence leaves that condition out: see
`Obligations.SecondDrawAlwaysCollides` and log entry 9.) -/
def Obligations.DrawingTwiceRestores : Prop :=
  ∀ (x y : RegIx) (n : Nibble) (s : State), x ≠ vF → y ≠ vF →
    (n.toNat = 0 ∨ s.i.toNat + n.toNat - 1 ≤ 0xFFF) →
    ∃ t u, exec (.drw x y n) s = .next t ∧ exec (.drw x y n) t = .next u ∧ u.fb = s.fb ∧
      ((∃ c, SpriteTouches s x y n c ∧ s.cell c = false) → u.reg vF = 1)

/-- R80's corner case read word for word, that the second of two equal draws gives VF = 1 whenever the sprite has a
set bit. R80's own pseudocode refutes it where every touched cell was 1 before the first draw (log entry 9). -/
def Obligations.SecondDrawAlwaysCollides : Prop :=
  ∀ (x y : RegIx) (n : Nibble) (s t u : State), x ≠ vF → y ≠ vF → (∃ c, SpriteTouches s x y n c) →
    exec (.drw x y n) s = .next t → t.fault = none → exec (.drw x y n) t = .next u → u.reg vF = 1

/-- R81, R82: SKP and SKNP test the key V[x], and fault above 0xF (the spec's own decision D8). -/
def Obligations.KeySkipsTestTheLevel : Prop :=
  ∀ (x : RegIx) (s : State),
    decodeWord (0xE#4 ++ regBits x ++ 0x9E#8) = .ok (.skp x) ∧
    decodeWord (0xE#4 ++ regBits x ++ 0xA1#8) = .ok (.sknp x) ∧
    (∀ k : Fin 16, (s.reg x).toNat = k.val →
      (∃ t, exec (.skp x) s = .next t ∧ OnlyWrites [.pc] s t ∧
        t.pc = if s.key[k.val] = true then s.pc + 2 else s.pc) ∧
      (∃ t, exec (.sknp x) s = .next t ∧ OnlyWrites [.pc] s t ∧
        t.pc = if s.key[k.val] = false then s.pc + 2 else s.pc)) ∧
    (15 < (s.reg x).toNat →
      exec (.skp x) s = .next (s.faultedAt (.outOfBounds .keyIndex) (some (0xE#4 ++ regBits x ++ 0x9E#8))
        (s.pc - 2) (s.reg x).toNat) ∧
      exec (.sknp x) s = .next (s.faultedAt (.outOfBounds .keyIndex) (some (0xE#4 ++ regBits x ++ 0xA1#8))
        (s.pc - 2) (s.reg x).toNat))

/-- R84: LD Vx, K takes the lowest pressed key; with none pressed it rewinds the pc to itself and changes nothing
else. (What "pressed" means is the spec's own decision D26.) -/
def Obligations.KeyWaitTakesLowestKey : Prop :=
  ∀ (x : RegIx) (s : State),
    decodeWord (0xF#4 ++ regBits x ++ 0x0A#8) = .ok (.ldVxK x) ∧
    (∀ k : Fin 16, s.key[k.val] = true → (∀ j : Fin 16, j < k → s.key[j.val] = false) →
      ∃ t, exec (.ldVxK x) s = .next t ∧ (t.reg x).toNat = k.val ∧ OnlyWrites [.reg x] s t) ∧
    ((∀ k : Fin 16, s.key[k.val] = false) →
      ∃ t, exec (.ldVxK x) s = .next t ∧ t.pc = s.pc - 2 ∧ OnlyWrites [.pc] s t)

/-- R83, R85, R86: the moves between a register and the timers. -/
def Obligations.TimerMoves : Prop :=
  ∀ (x : RegIx) (s : State),
    decodeWord (0xF#4 ++ regBits x ++ 0x07#8) = .ok (.ldVxDt x) ∧
    decodeWord (0xF#4 ++ regBits x ++ 0x15#8) = .ok (.ldDtVx x) ∧
    decodeWord (0xF#4 ++ regBits x ++ 0x18#8) = .ok (.ldStVx x) ∧
    (∃ t, exec (.ldVxDt x) s = .next t ∧ t.reg x = s.dt ∧ OnlyWrites [.reg x] s t) ∧
    (∃ t, exec (.ldDtVx x) s = .next t ∧ t.dt = s.reg x ∧ OnlyWrites [.dt] s t) ∧
    (∃ t, exec (.ldStVx x) s = .next t ∧ t.st = s.reg x ∧ (t.soundActive = true ↔ s.reg x ≠ 0) ∧
      OnlyWrites [.st] s t)

/-- R98 (and R15, R16, R23): n ticks lower each timer by n, saturating at 0, and change nothing else; the sound
output is on exactly while ST is not 0. -/
def Obligations.TicksSaturateAtZero : Prop :=
  ∀ (n : Nat) (s : State),
    let u := runTransactions (List.replicate n .tickTimers) s
    u.dt.toNat = s.dt.toNat - n ∧ u.st.toNat = s.st.toNat - n ∧ u = { s with dt := u.dt, st := u.st } ∧
    ((transact .readSound u).1 = .sound true ↔ n < s.st.toNat)

/-- R100: a key event sets its key's level and changes nothing else (a 4-bit key port: the spec's own decision D27). -/
def Obligations.KeyEventsSetOneKey : Prop :=
  ∀ (k : Fin 16) (s : State),
    let d := (transact (.keyDown k) s).2
    let u := (transact (.keyUp k) s).2
    (∀ j : Fin 16, d.key[j.val] = if j = k then true else s.key[j.val]) ∧ d = { s with key := d.key } ∧
    (∀ j : Fin 16, u.key[j.val] = if j = k then false else s.key[j.val]) ∧ u = { s with key := u.key }

/-- R107, R108: `load_program` copies the image to 0x200 and changes no other byte and nothing else; an image that
does not fit raises ProgramLoad with its length and writes no byte; a halted core refuses it (the spec's own
decisions D16, D17; that such a fault leaves `draw` alone is read from R25: log entry 6). -/
def Obligations.LoadProgramCopiesTheImage : Prop :=
  ∀ (bytes : List Byte) (s : State),
    (s.fault = none → 0x200 + bytes.length ≤ 0x1000 → ∃ t, transact (.loadProgram bytes) s = (.loadOk, t) ∧
      (∀ (k : Nat) (h : k < bytes.length), t.readByte (0x200 + k) = bytes[k]) ∧
      (∀ a, a < 0x200 ∨ 0x200 + bytes.length ≤ a → t.readByte a = s.readByte a) ∧ t = { s with mem := t.mem }) ∧
    (s.fault = none → 0x1000 < 0x200 + bytes.length →
      let r : FaultRecord :=
        { kind := .outOfBounds .programLoad, word := none, pc := s.pc, info := bytes.length }
      transact (.loadProgram bytes) s = (.loadFault r, { s with fault := some r })) ∧
    (s.fault ≠ none → transact (.loadProgram bytes) s = (.loadRefused, s))

/-- R96, D18: every read accessor gives what it names and changes nothing. -/
def Obligations.ReadsChangeNothing : Prop :=
  ∀ s : State,
    transact .readFramebuffer s = (.framebuffer s.fb, s) ∧ transact .readDraw s = (.draw s.draw, s) ∧
    transact .readDelayTimer s = (.delayTimer s.dt, s) ∧ transact .readFault s = (.fault s.fault, s) ∧
    (∃ b, transact .readSound s = (.sound b, s) ∧ (b = true ↔ s.st.toNat ≠ 0))

/-- R114: along every schedule without `new`, the two quirk bits stay as they were. -/
def Obligations.QuirksAreFixedForTheRun : Prop :=
  ∀ (ts : List Transaction) (s : State), (∀ sq lq font, Transaction.new sq lq font ∉ ts) →
    (runTransactions ts s).shiftQuirk = s.shiftQuirk ∧ (runTransactions ts s).loadStoreQuirk = s.loadStoreQuirk

/-- R105: the font table that `new` latches stays as it was along every schedule without `new` (that it is a
parameter: the spec's own decision D2); stores over its bytes change memory and not the table. -/
def Obligations.FontTableIsFixedForTheRun : Prop :=
  ∀ (ts : List Transaction) (s : State), (∀ sq lq font, Transaction.new sq lq font ∉ ts) →
    (runTransactions ts s).font = s.font

/-- R17: no step writes the keypad; of the host's transactions only the key events and `new` do. -/
def Obligations.OnlyTheHostWritesKeys : Prop :=
  (∀ s t, step s = .next t → t.key = s.key) ∧
  (∀ (c : Transaction) (s : State), (∀ k, c ≠ .keyDown k) → (∀ k, c ≠ .keyUp k) →
    (∀ sq lq font, c ≠ .new sq lq font) → (transact c s).2.key = s.key)

/-- R25, R113: after a step of a core that is not halted, `draw` is true exactly when a CLS or a DRW executed to
completion (a faulting step leaves it false: the spec's own decision D31); between steps it keeps its value. (The second
clause covers a `load_program` that raises. That such a fault leaves `draw` alone is the model's reading of R25, not a
rule: log entry 6.) -/
def Obligations.DrawSignalIsRecomputed : Prop :=
  (∀ s t, s.fault = none → step s = .next t →
    (t.draw = true ↔ t.fault = none ∧ ∃ w, s.fetchWord = some w ∧
      (decodeWord w = .ok .cls ∨ ∃ x y n, decodeWord w = .ok (.drw x y n)))) ∧
  (∀ (c : Transaction) (s : State), (∀ r, c ≠ .step r) → (∀ sq lq font, c ≠ .new sq lq font) →
    (transact c s).2.draw = s.draw)

/-- R116, "Idle at A" (the spec's own decision D20): every further step leaves the whole state unchanged except
`draw`, which is false. -/
def Obligations.IdleStaysIdle : Prop :=
  ∀ (a : Addr) (s : State), IdleAt a s →
    step s = .next { s with draw := false } ∧ IdleAt a { s with draw := false }

/-- R84, R104, R116, "Waiting at A" (the spec's own decision D20): every step leaves the whole state unchanged except
`draw`, which is false; a key press lets the next step pass the instruction, with the key in the register that the X
field of the waiting word names, and nothing else changed. -/
def Obligations.WaitingEndsWithAKey : Prop :=
  ∀ (a : Addr) (s : State), WaitingAt a s →
    step s = .next { s with draw := false } ∧
    ∀ (k : Fin 16) (w : Word), s.fetchWord = some w →
      ∃ t, step (transact (.keyDown k) s).2 = .next t ∧ t.pc = s.pc + 2 ∧ t.draw = false ∧
        (t.reg (regOf (fieldX w))).toNat = k.val ∧
        OnlyWrites [.pc, .draw, .reg (regOf (fieldX w))] (transact (.keyDown k) s).2 t

/-- R96: the `step` transaction of a running core is its step with the byte the host presents, and reports the draw signal
and the fault status of the state after it. The byte is used only by Cxnn: two steps that differ in it alone end in
states that differ in it alone, and so do two `step` transactions of one core, with one reply. (A byte for the step
to take: the spec's own decision D14; that it stands in the state: log entry 3.) -/
def Obligations.RandomInputMattersOnlyToRnd : Prop :=
  (∀ (s : State) (r : Byte), s.fault = none → ∃ t, step { s with random := r } = .next t ∧
    transact (.step r) s = (.stepped t.draw t.fault, t)) ∧
  (∀ (s t : State) (r : Byte), (∀ w x nn, s.fetchWord = some w → decodeWord w ≠ .ok (.rnd x nn)) →
    step s = .next t → step { s with random := r } = .next { t with random := r } ∧
      (s.fault = none → transact (.step r) s = (.stepped t.draw t.fault, { t with random := r })))
end

