-- ==== Sys2Proof/Laws/Decode.lean ====
section
/-! SUPPORT. The fields of a word of each format (30_encoding.md R42), so that no proof unfolds the bit extraction again. -/

namespace Sys2Proof

section Fields

@[simp] theorem fieldOp_wordA (op : Nibble) (nnn : Addr) : fieldOp (wordA op nnn) = op := by
  apply BitVec.eq_of_getLsbD_eq; intro k hk
  simp only [fieldOp, wordA, BitVec.getLsbD_extractLsb', BitVec.getLsbD_append, hk, decide_true, Bool.true_and]
  rw [if_neg (by omega)]; congr 1; omega

@[simp] theorem fieldNNN_wordA (op : Nibble) (nnn : Addr) : fieldNNN (wordA op nnn) = nnn := by
  apply BitVec.eq_of_getLsbD_eq; intro k hk
  simp only [fieldNNN, wordA, BitVec.getLsbD_extractLsb', BitVec.getLsbD_append, hk, decide_true, Bool.true_and]
  rw [if_pos (by omega)]; congr 1; omega

@[simp] theorem fieldOp_wordXNN (op x : Nibble) (nn : Byte) : fieldOp (wordXNN op x nn) = op := by
  apply BitVec.eq_of_getLsbD_eq; intro k hk
  simp only [fieldOp, wordXNN, BitVec.getLsbD_extractLsb', BitVec.getLsbD_append, hk, decide_true, Bool.true_and]
  rw [if_neg (by omega), if_neg (by omega)]; congr 1; omega

@[simp] theorem fieldX_wordXNN (op x : Nibble) (nn : Byte) : fieldX (wordXNN op x nn) = x := by
  apply BitVec.eq_of_getLsbD_eq; intro k hk
  simp only [fieldX, wordXNN, BitVec.getLsbD_extractLsb', BitVec.getLsbD_append, hk, decide_true, Bool.true_and]
  rw [if_neg (by omega), if_pos (by omega)]; congr 1; omega

@[simp] theorem fieldNN_wordXNN (op x : Nibble) (nn : Byte) : fieldNN (wordXNN op x nn) = nn := by
  apply BitVec.eq_of_getLsbD_eq; intro k hk
  simp only [fieldNN, wordXNN, BitVec.getLsbD_extractLsb', BitVec.getLsbD_append, hk, decide_true, Bool.true_and]
  rw [if_pos (by omega)]; congr 1; omega

@[simp] theorem fieldOp_wordXYN (op x y n : Nibble) : fieldOp (wordXYN op x y n) = op := by
  apply BitVec.eq_of_getLsbD_eq; intro k hk
  simp only [fieldOp, wordXYN, BitVec.getLsbD_extractLsb', BitVec.getLsbD_append, hk, decide_true, Bool.true_and]
  rw [if_neg (by omega), if_neg (by omega), if_neg (by omega)]; congr 1; omega

@[simp] theorem fieldX_wordXYN (op x y n : Nibble) : fieldX (wordXYN op x y n) = x := by
  apply BitVec.eq_of_getLsbD_eq; intro k hk
  simp only [fieldX, wordXYN, BitVec.getLsbD_extractLsb', BitVec.getLsbD_append, hk, decide_true, Bool.true_and]
  rw [if_neg (by omega), if_neg (by omega), if_pos (by omega)]; congr 1; omega

@[simp] theorem fieldY_wordXYN (op x y n : Nibble) : fieldY (wordXYN op x y n) = y := by
  apply BitVec.eq_of_getLsbD_eq; intro k hk
  simp only [fieldY, wordXYN, BitVec.getLsbD_extractLsb', BitVec.getLsbD_append, hk, decide_true, Bool.true_and]
  rw [if_neg (by omega), if_pos (by omega)]; congr 1; omega

@[simp] theorem fieldN_wordXYN (op x y n : Nibble) : fieldN (wordXYN op x y n) = n := by
  apply BitVec.eq_of_getLsbD_eq; intro k hk
  simp only [fieldN, wordXYN, BitVec.getLsbD_extractLsb', BitVec.getLsbD_append, hk, decide_true, Bool.true_and]
  rw [if_pos (by omega)]; congr 1; omega

/-- A word is its opcode nibble and NNN. -/
theorem wordA_fields (w : Word) : wordA (fieldOp w) (fieldNNN w) = w := by
  apply BitVec.eq_of_getLsbD_eq; intro k hk
  simp only [wordA, fieldOp, fieldNNN, BitVec.getLsbD_append, BitVec.getLsbD_extractLsb']
  split
  · simp [*]
  · simp only [show k - 12 < 4 by omega, decide_true, Bool.true_and]; congr 1; omega

/-- A word is its opcode nibble, X and NN. -/
theorem wordXNN_fields (w : Word) : wordXNN (fieldOp w) (fieldX w) (fieldNN w) = w := by
  apply BitVec.eq_of_getLsbD_eq; intro k hk
  simp only [wordXNN, fieldOp, fieldX, fieldNN, BitVec.getLsbD_append, BitVec.getLsbD_extractLsb']
  split
  · simp [*]
  · split
    · simp only [*, decide_true, Bool.true_and]; congr 1; omega
    · simp only [show k - 8 - 4 < 4 by omega, decide_true, Bool.true_and]; congr 1; omega

/-- A word is its four nibbles. -/
theorem wordXYN_fields (w : Word) : wordXYN (fieldOp w) (fieldX w) (fieldY w) (fieldN w) = w := by
  apply BitVec.eq_of_getLsbD_eq; intro k hk
  simp only [wordXYN, fieldOp, fieldX, fieldY, fieldN, BitVec.getLsbD_append, BitVec.getLsbD_extractLsb']
  split
  · simp [*]
  · split
    · simp only [*, decide_true, Bool.true_and]; congr 1; omega
    · split
      · simp only [*, decide_true, Bool.true_and]; congr 1; omega
      · simp only [show k - 4 - 4 - 4 < 4 by omega, decide_true, Bool.true_and]; congr 1; omega

@[simp] theorem regOf_regBits (r : RegIx) : regOf (regBits r) = r := rfl

@[simp] theorem regBits_regOf (f : Nibble) : regBits (regOf f) = f := rfl

/-- A word read back from its two bytes (R32, R33). -/
@[simp] theorem wordOfBytes_bytes (w : Word) :
    wordOfBytes (w.extractLsb' 8 8) (w.extractLsb' 0 8) = w := by
  apply BitVec.eq_of_getLsbD_eq; intro k hk
  simp only [wordOfBytes, BitVec.getLsbD_append, BitVec.getLsbD_extractLsb']
  split
  · simp [*]
  · simp only [show k - 8 < 8 by omega, decide_true, Bool.true_and]; congr 1; omega

/-- Two big-endian bytes as a number: `hi * 256 + lo` (R32). -/
theorem wordOfBytes_toNat (hi lo : Byte) : (wordOfBytes hi lo).toNat = hi.toNat * 256 + lo.toNat := by
  simp only [wordOfBytes, BitVec.toNat_append]
  rw [Nat.shiftLeft_eq, ← Nat.shiftLeft_eq, ← Nat.shiftLeft_add_eq_or_of_lt lo.isLt, Nat.shiftLeft_eq]

/-- Decoding the bytes of a word is decoding the word. -/
theorem decode_bytesOfWord (w : Word) (rest : List Byte) :
    decode (bytesOfWord w ++ rest) = (decodeWord w).map fun i => (i, rest) := by
  simp [bytesOfWord, decode]

end Fields

end Sys2Proof
end

