-- ==== Sys2Proof/Laws/State.lean ====
section
/-! SUPPORT. What each update of State leaves in each field: one lemma per field per update, true by rfl. -/

namespace Sys2Proof.Machine

section Fields
variable (s : State)

@[simp] theorem setReg_mem (r : RegIx) (b : Byte) : (s.setReg r b).mem = s.mem := rfl
@[simp] theorem setReg_v (r : RegIx) (b : Byte) : (s.setReg r b).v = s.v.set r.val b := rfl
@[simp] theorem setReg_i (r : RegIx) (b : Byte) : (s.setReg r b).i = s.i := rfl
@[simp] theorem setReg_pc (r : RegIx) (b : Byte) : (s.setReg r b).pc = s.pc := rfl
@[simp] theorem setReg_stack (r : RegIx) (b : Byte) : (s.setReg r b).stack = s.stack := rfl
@[simp] theorem setReg_sp (r : RegIx) (b : Byte) : (s.setReg r b).sp = s.sp := rfl
@[simp] theorem setReg_dt (r : RegIx) (b : Byte) : (s.setReg r b).dt = s.dt := rfl
@[simp] theorem setReg_st (r : RegIx) (b : Byte) : (s.setReg r b).st = s.st := rfl
@[simp] theorem setReg_key (r : RegIx) (b : Byte) : (s.setReg r b).key = s.key := rfl
@[simp] theorem setReg_fb (r : RegIx) (b : Byte) : (s.setReg r b).fb = s.fb := rfl
@[simp] theorem setReg_shiftQuirk (r : RegIx) (b : Byte) : (s.setReg r b).shiftQuirk = s.shiftQuirk := rfl
@[simp] theorem setReg_loadStoreQuirk (r : RegIx) (b : Byte) : (s.setReg r b).loadStoreQuirk = s.loadStoreQuirk := rfl
@[simp] theorem setReg_font (r : RegIx) (b : Byte) : (s.setReg r b).font = s.font := rfl
@[simp] theorem setReg_draw (r : RegIx) (b : Byte) : (s.setReg r b).draw = s.draw := rfl
@[simp] theorem setReg_fault (r : RegIx) (b : Byte) : (s.setReg r b).fault = s.fault := rfl
@[simp] theorem setReg_random (r : RegIx) (b : Byte) : (s.setReg r b).random = s.random := rfl
@[simp] theorem setReg_draws (r : RegIx) (b : Byte) : (s.setReg r b).draws = s.draws := rfl

@[simp] theorem setI_mem (a : Word) : (s.setI a).mem = s.mem := rfl
@[simp] theorem setI_v (a : Word) : (s.setI a).v = s.v := rfl
@[simp] theorem setI_i (a : Word) : (s.setI a).i = a := rfl
@[simp] theorem setI_pc (a : Word) : (s.setI a).pc = s.pc := rfl
@[simp] theorem setI_stack (a : Word) : (s.setI a).stack = s.stack := rfl
@[simp] theorem setI_sp (a : Word) : (s.setI a).sp = s.sp := rfl
@[simp] theorem setI_dt (a : Word) : (s.setI a).dt = s.dt := rfl
@[simp] theorem setI_st (a : Word) : (s.setI a).st = s.st := rfl
@[simp] theorem setI_key (a : Word) : (s.setI a).key = s.key := rfl
@[simp] theorem setI_fb (a : Word) : (s.setI a).fb = s.fb := rfl
@[simp] theorem setI_shiftQuirk (a : Word) : (s.setI a).shiftQuirk = s.shiftQuirk := rfl
@[simp] theorem setI_loadStoreQuirk (a : Word) : (s.setI a).loadStoreQuirk = s.loadStoreQuirk := rfl
@[simp] theorem setI_font (a : Word) : (s.setI a).font = s.font := rfl
@[simp] theorem setI_draw (a : Word) : (s.setI a).draw = s.draw := rfl
@[simp] theorem setI_fault (a : Word) : (s.setI a).fault = s.fault := rfl
@[simp] theorem setI_random (a : Word) : (s.setI a).random = s.random := rfl
@[simp] theorem setI_draws (a : Word) : (s.setI a).draws = s.draws := rfl

@[simp] theorem jump_mem (a : Word) : (s.jump a).mem = s.mem := rfl
@[simp] theorem jump_v (a : Word) : (s.jump a).v = s.v := rfl
@[simp] theorem jump_i (a : Word) : (s.jump a).i = s.i := rfl
@[simp] theorem jump_pc (a : Word) : (s.jump a).pc = a := rfl
@[simp] theorem jump_stack (a : Word) : (s.jump a).stack = s.stack := rfl
@[simp] theorem jump_sp (a : Word) : (s.jump a).sp = s.sp := rfl
@[simp] theorem jump_dt (a : Word) : (s.jump a).dt = s.dt := rfl
@[simp] theorem jump_st (a : Word) : (s.jump a).st = s.st := rfl
@[simp] theorem jump_key (a : Word) : (s.jump a).key = s.key := rfl
@[simp] theorem jump_fb (a : Word) : (s.jump a).fb = s.fb := rfl
@[simp] theorem jump_shiftQuirk (a : Word) : (s.jump a).shiftQuirk = s.shiftQuirk := rfl
@[simp] theorem jump_loadStoreQuirk (a : Word) : (s.jump a).loadStoreQuirk = s.loadStoreQuirk := rfl
@[simp] theorem jump_font (a : Word) : (s.jump a).font = s.font := rfl
@[simp] theorem jump_draw (a : Word) : (s.jump a).draw = s.draw := rfl
@[simp] theorem jump_fault (a : Word) : (s.jump a).fault = s.fault := rfl
@[simp] theorem jump_random (a : Word) : (s.jump a).random = s.random := rfl
@[simp] theorem jump_draws (a : Word) : (s.jump a).draws = s.draws := rfl

@[simp] theorem skipIf_mem (c : Bool) : (s.skipIf c).mem = s.mem := rfl
@[simp] theorem skipIf_v (c : Bool) : (s.skipIf c).v = s.v := rfl
@[simp] theorem skipIf_i (c : Bool) : (s.skipIf c).i = s.i := rfl
@[simp] theorem skipIf_pc (c : Bool) : (s.skipIf c).pc = if c then s.pc + 2 else s.pc := rfl
@[simp] theorem skipIf_stack (c : Bool) : (s.skipIf c).stack = s.stack := rfl
@[simp] theorem skipIf_sp (c : Bool) : (s.skipIf c).sp = s.sp := rfl
@[simp] theorem skipIf_dt (c : Bool) : (s.skipIf c).dt = s.dt := rfl
@[simp] theorem skipIf_st (c : Bool) : (s.skipIf c).st = s.st := rfl
@[simp] theorem skipIf_key (c : Bool) : (s.skipIf c).key = s.key := rfl
@[simp] theorem skipIf_fb (c : Bool) : (s.skipIf c).fb = s.fb := rfl
@[simp] theorem skipIf_shiftQuirk (c : Bool) : (s.skipIf c).shiftQuirk = s.shiftQuirk := rfl
@[simp] theorem skipIf_loadStoreQuirk (c : Bool) : (s.skipIf c).loadStoreQuirk = s.loadStoreQuirk := rfl
@[simp] theorem skipIf_font (c : Bool) : (s.skipIf c).font = s.font := rfl
@[simp] theorem skipIf_draw (c : Bool) : (s.skipIf c).draw = s.draw := rfl
@[simp] theorem skipIf_fault (c : Bool) : (s.skipIf c).fault = s.fault := rfl
@[simp] theorem skipIf_random (c : Bool) : (s.skipIf c).random = s.random := rfl
@[simp] theorem skipIf_draws (c : Bool) : (s.skipIf c).draws = s.draws := rfl

@[simp] theorem writeBytes_mem (a : Nat) (bs : List Byte) : (s.writeBytes a bs).mem = Memory.writeBytes s.font s.mem a bs := rfl
@[simp] theorem writeBytes_v (a : Nat) (bs : List Byte) : (s.writeBytes a bs).v = s.v := rfl
@[simp] theorem writeBytes_i (a : Nat) (bs : List Byte) : (s.writeBytes a bs).i = s.i := rfl
@[simp] theorem writeBytes_pc (a : Nat) (bs : List Byte) : (s.writeBytes a bs).pc = s.pc := rfl
@[simp] theorem writeBytes_stack (a : Nat) (bs : List Byte) : (s.writeBytes a bs).stack = s.stack := rfl
@[simp] theorem writeBytes_sp (a : Nat) (bs : List Byte) : (s.writeBytes a bs).sp = s.sp := rfl
@[simp] theorem writeBytes_dt (a : Nat) (bs : List Byte) : (s.writeBytes a bs).dt = s.dt := rfl
@[simp] theorem writeBytes_st (a : Nat) (bs : List Byte) : (s.writeBytes a bs).st = s.st := rfl
@[simp] theorem writeBytes_key (a : Nat) (bs : List Byte) : (s.writeBytes a bs).key = s.key := rfl
@[simp] theorem writeBytes_fb (a : Nat) (bs : List Byte) : (s.writeBytes a bs).fb = s.fb := rfl
@[simp] theorem writeBytes_shiftQuirk (a : Nat) (bs : List Byte) : (s.writeBytes a bs).shiftQuirk = s.shiftQuirk := rfl
@[simp] theorem writeBytes_loadStoreQuirk (a : Nat) (bs : List Byte) : (s.writeBytes a bs).loadStoreQuirk = s.loadStoreQuirk := rfl
@[simp] theorem writeBytes_font (a : Nat) (bs : List Byte) : (s.writeBytes a bs).font = s.font := rfl
@[simp] theorem writeBytes_draw (a : Nat) (bs : List Byte) : (s.writeBytes a bs).draw = s.draw := rfl
@[simp] theorem writeBytes_fault (a : Nat) (bs : List Byte) : (s.writeBytes a bs).fault = s.fault := rfl
@[simp] theorem writeBytes_random (a : Nat) (bs : List Byte) : (s.writeBytes a bs).random = s.random := rfl
@[simp] theorem writeBytes_draws (a : Nat) (bs : List Byte) : (s.writeBytes a bs).draws = s.draws := rfl

@[simp] theorem loadRegsUpTo_mem (x : RegIx) : (s.loadRegsUpTo x).mem = s.mem := rfl
@[simp] theorem loadRegsUpTo_v (x : RegIx) : (s.loadRegsUpTo x).v = Vector.ofFn fun k : Fin 16 => if k ≤ x then s.readByte (s.blockAddr k.val) else s.v[k.val] := rfl
@[simp] theorem loadRegsUpTo_i (x : RegIx) : (s.loadRegsUpTo x).i = s.i := rfl
@[simp] theorem loadRegsUpTo_pc (x : RegIx) : (s.loadRegsUpTo x).pc = s.pc := rfl
@[simp] theorem loadRegsUpTo_stack (x : RegIx) : (s.loadRegsUpTo x).stack = s.stack := rfl
@[simp] theorem loadRegsUpTo_sp (x : RegIx) : (s.loadRegsUpTo x).sp = s.sp := rfl
@[simp] theorem loadRegsUpTo_dt (x : RegIx) : (s.loadRegsUpTo x).dt = s.dt := rfl
@[simp] theorem loadRegsUpTo_st (x : RegIx) : (s.loadRegsUpTo x).st = s.st := rfl
@[simp] theorem loadRegsUpTo_key (x : RegIx) : (s.loadRegsUpTo x).key = s.key := rfl
@[simp] theorem loadRegsUpTo_fb (x : RegIx) : (s.loadRegsUpTo x).fb = s.fb := rfl
@[simp] theorem loadRegsUpTo_shiftQuirk (x : RegIx) : (s.loadRegsUpTo x).shiftQuirk = s.shiftQuirk := rfl
@[simp] theorem loadRegsUpTo_loadStoreQuirk (x : RegIx) : (s.loadRegsUpTo x).loadStoreQuirk = s.loadStoreQuirk := rfl
@[simp] theorem loadRegsUpTo_font (x : RegIx) : (s.loadRegsUpTo x).font = s.font := rfl
@[simp] theorem loadRegsUpTo_draw (x : RegIx) : (s.loadRegsUpTo x).draw = s.draw := rfl
@[simp] theorem loadRegsUpTo_fault (x : RegIx) : (s.loadRegsUpTo x).fault = s.fault := rfl
@[simp] theorem loadRegsUpTo_random (x : RegIx) : (s.loadRegsUpTo x).random = s.random := rfl
@[simp] theorem loadRegsUpTo_draws (x : RegIx) : (s.loadRegsUpTo x).draws = s.draws := rfl

@[simp] theorem advanceI_mem (x : RegIx) : (s.advanceI x).mem = s.mem := rfl
@[simp] theorem advanceI_v (x : RegIx) : (s.advanceI x).v = s.v := rfl
@[simp] theorem advanceI_i (x : RegIx) : (s.advanceI x).i = if s.loadStoreQuirk then s.i else s.i + BitVec.ofNat 16 (x.val + 1) := rfl
@[simp] theorem advanceI_pc (x : RegIx) : (s.advanceI x).pc = s.pc := rfl
@[simp] theorem advanceI_stack (x : RegIx) : (s.advanceI x).stack = s.stack := rfl
@[simp] theorem advanceI_sp (x : RegIx) : (s.advanceI x).sp = s.sp := rfl
@[simp] theorem advanceI_dt (x : RegIx) : (s.advanceI x).dt = s.dt := rfl
@[simp] theorem advanceI_st (x : RegIx) : (s.advanceI x).st = s.st := rfl
@[simp] theorem advanceI_key (x : RegIx) : (s.advanceI x).key = s.key := rfl
@[simp] theorem advanceI_fb (x : RegIx) : (s.advanceI x).fb = s.fb := rfl
@[simp] theorem advanceI_shiftQuirk (x : RegIx) : (s.advanceI x).shiftQuirk = s.shiftQuirk := rfl
@[simp] theorem advanceI_loadStoreQuirk (x : RegIx) : (s.advanceI x).loadStoreQuirk = s.loadStoreQuirk := rfl
@[simp] theorem advanceI_font (x : RegIx) : (s.advanceI x).font = s.font := rfl
@[simp] theorem advanceI_draw (x : RegIx) : (s.advanceI x).draw = s.draw := rfl
@[simp] theorem advanceI_fault (x : RegIx) : (s.advanceI x).fault = s.fault := rfl
@[simp] theorem advanceI_random (x : RegIx) : (s.advanceI x).random = s.random := rfl
@[simp] theorem advanceI_draws (x : RegIx) : (s.advanceI x).draws = s.draws := rfl

@[simp] theorem nextDraw_mem : (s.nextDraw).mem = s.mem := rfl
@[simp] theorem nextDraw_v : (s.nextDraw).v = s.v := rfl
@[simp] theorem nextDraw_i : (s.nextDraw).i = s.i := rfl
@[simp] theorem nextDraw_pc : (s.nextDraw).pc = s.pc := rfl
@[simp] theorem nextDraw_stack : (s.nextDraw).stack = s.stack := rfl
@[simp] theorem nextDraw_sp : (s.nextDraw).sp = s.sp := rfl
@[simp] theorem nextDraw_dt : (s.nextDraw).dt = s.dt := rfl
@[simp] theorem nextDraw_st : (s.nextDraw).st = s.st := rfl
@[simp] theorem nextDraw_key : (s.nextDraw).key = s.key := rfl
@[simp] theorem nextDraw_fb : (s.nextDraw).fb = s.fb := rfl
@[simp] theorem nextDraw_shiftQuirk : (s.nextDraw).shiftQuirk = s.shiftQuirk := rfl
@[simp] theorem nextDraw_loadStoreQuirk : (s.nextDraw).loadStoreQuirk = s.loadStoreQuirk := rfl
@[simp] theorem nextDraw_font : (s.nextDraw).font = s.font := rfl
@[simp] theorem nextDraw_draw : (s.nextDraw).draw = s.draw := rfl
@[simp] theorem nextDraw_fault : (s.nextDraw).fault = s.fault := rfl
@[simp] theorem nextDraw_random : (s.nextDraw).random = Config.randomByte s.draws := rfl
@[simp] theorem nextDraw_draws : (s.nextDraw).draws = s.draws + 1 := rfl

@[simp] theorem beginExecute_mem : (s.beginExecute).mem = s.mem := rfl
@[simp] theorem beginExecute_v : (s.beginExecute).v = s.v := rfl
@[simp] theorem beginExecute_i : (s.beginExecute).i = s.i := rfl
@[simp] theorem beginExecute_pc : (s.beginExecute).pc = s.pc + 2 := rfl
@[simp] theorem beginExecute_stack : (s.beginExecute).stack = s.stack := rfl
@[simp] theorem beginExecute_sp : (s.beginExecute).sp = s.sp := rfl
@[simp] theorem beginExecute_dt : (s.beginExecute).dt = s.dt := rfl
@[simp] theorem beginExecute_st : (s.beginExecute).st = s.st := rfl
@[simp] theorem beginExecute_key : (s.beginExecute).key = s.key := rfl
@[simp] theorem beginExecute_fb : (s.beginExecute).fb = s.fb := rfl
@[simp] theorem beginExecute_shiftQuirk : (s.beginExecute).shiftQuirk = s.shiftQuirk := rfl
@[simp] theorem beginExecute_loadStoreQuirk : (s.beginExecute).loadStoreQuirk = s.loadStoreQuirk := rfl
@[simp] theorem beginExecute_font : (s.beginExecute).font = s.font := rfl
@[simp] theorem beginExecute_draw : (s.beginExecute).draw = false := rfl
@[simp] theorem beginExecute_fault : (s.beginExecute).fault = s.fault := rfl
@[simp] theorem beginExecute_random : (s.beginExecute).random = s.random := rfl
@[simp] theorem beginExecute_draws : (s.beginExecute).draws = s.draws := rfl

@[simp] theorem recordFault_mem (r : FaultRecord) : (s.recordFault r).mem = s.mem := rfl
@[simp] theorem recordFault_v (r : FaultRecord) : (s.recordFault r).v = s.v := rfl
@[simp] theorem recordFault_i (r : FaultRecord) : (s.recordFault r).i = s.i := rfl
@[simp] theorem recordFault_pc (r : FaultRecord) : (s.recordFault r).pc = s.pc := rfl
@[simp] theorem recordFault_stack (r : FaultRecord) : (s.recordFault r).stack = s.stack := rfl
@[simp] theorem recordFault_sp (r : FaultRecord) : (s.recordFault r).sp = s.sp := rfl
@[simp] theorem recordFault_dt (r : FaultRecord) : (s.recordFault r).dt = s.dt := rfl
@[simp] theorem recordFault_st (r : FaultRecord) : (s.recordFault r).st = s.st := rfl
@[simp] theorem recordFault_key (r : FaultRecord) : (s.recordFault r).key = s.key := rfl
@[simp] theorem recordFault_fb (r : FaultRecord) : (s.recordFault r).fb = s.fb := rfl
@[simp] theorem recordFault_shiftQuirk (r : FaultRecord) : (s.recordFault r).shiftQuirk = s.shiftQuirk := rfl
@[simp] theorem recordFault_loadStoreQuirk (r : FaultRecord) : (s.recordFault r).loadStoreQuirk = s.loadStoreQuirk := rfl
@[simp] theorem recordFault_font (r : FaultRecord) : (s.recordFault r).font = s.font := rfl
@[simp] theorem recordFault_draw (r : FaultRecord) : (s.recordFault r).draw = s.draw := rfl
@[simp] theorem recordFault_fault (r : FaultRecord) : (s.recordFault r).fault = some r := rfl
@[simp] theorem recordFault_random (r : FaultRecord) : (s.recordFault r).random = s.random := rfl
@[simp] theorem recordFault_draws (r : FaultRecord) : (s.recordFault r).draws = s.draws := rfl

@[simp] theorem tickTimers_mem : (s.tickTimers).mem = s.mem := rfl
@[simp] theorem tickTimers_v : (s.tickTimers).v = s.v := rfl
@[simp] theorem tickTimers_i : (s.tickTimers).i = s.i := rfl
@[simp] theorem tickTimers_pc : (s.tickTimers).pc = s.pc := rfl
@[simp] theorem tickTimers_stack : (s.tickTimers).stack = s.stack := rfl
@[simp] theorem tickTimers_sp : (s.tickTimers).sp = s.sp := rfl
@[simp] theorem tickTimers_dt : (s.tickTimers).dt = if s.dt.toNat > 0 then s.dt - 1 else s.dt := rfl
@[simp] theorem tickTimers_st : (s.tickTimers).st = if s.st.toNat > 0 then s.st - 1 else s.st := rfl
@[simp] theorem tickTimers_key : (s.tickTimers).key = s.key := rfl
@[simp] theorem tickTimers_fb : (s.tickTimers).fb = s.fb := rfl
@[simp] theorem tickTimers_shiftQuirk : (s.tickTimers).shiftQuirk = s.shiftQuirk := rfl
@[simp] theorem tickTimers_loadStoreQuirk : (s.tickTimers).loadStoreQuirk = s.loadStoreQuirk := rfl
@[simp] theorem tickTimers_font : (s.tickTimers).font = s.font := rfl
@[simp] theorem tickTimers_draw : (s.tickTimers).draw = s.draw := rfl
@[simp] theorem tickTimers_fault : (s.tickTimers).fault = s.fault := rfl
@[simp] theorem tickTimers_random : (s.tickTimers).random = s.random := rfl
@[simp] theorem tickTimers_draws : (s.tickTimers).draws = s.draws := rfl

@[simp] theorem keyDown_mem (k : Fin 16) : (s.keyDown k).mem = s.mem := rfl
@[simp] theorem keyDown_v (k : Fin 16) : (s.keyDown k).v = s.v := rfl
@[simp] theorem keyDown_i (k : Fin 16) : (s.keyDown k).i = s.i := rfl
@[simp] theorem keyDown_pc (k : Fin 16) : (s.keyDown k).pc = s.pc := rfl
@[simp] theorem keyDown_stack (k : Fin 16) : (s.keyDown k).stack = s.stack := rfl
@[simp] theorem keyDown_sp (k : Fin 16) : (s.keyDown k).sp = s.sp := rfl
@[simp] theorem keyDown_dt (k : Fin 16) : (s.keyDown k).dt = s.dt := rfl
@[simp] theorem keyDown_st (k : Fin 16) : (s.keyDown k).st = s.st := rfl
@[simp] theorem keyDown_key (k : Fin 16) : (s.keyDown k).key = s.key.set k.val true := rfl
@[simp] theorem keyDown_fb (k : Fin 16) : (s.keyDown k).fb = s.fb := rfl
@[simp] theorem keyDown_shiftQuirk (k : Fin 16) : (s.keyDown k).shiftQuirk = s.shiftQuirk := rfl
@[simp] theorem keyDown_loadStoreQuirk (k : Fin 16) : (s.keyDown k).loadStoreQuirk = s.loadStoreQuirk := rfl
@[simp] theorem keyDown_font (k : Fin 16) : (s.keyDown k).font = s.font := rfl
@[simp] theorem keyDown_draw (k : Fin 16) : (s.keyDown k).draw = s.draw := rfl
@[simp] theorem keyDown_fault (k : Fin 16) : (s.keyDown k).fault = s.fault := rfl
@[simp] theorem keyDown_random (k : Fin 16) : (s.keyDown k).random = s.random := rfl
@[simp] theorem keyDown_draws (k : Fin 16) : (s.keyDown k).draws = s.draws := rfl

@[simp] theorem keyUp_mem (k : Fin 16) : (s.keyUp k).mem = s.mem := rfl
@[simp] theorem keyUp_v (k : Fin 16) : (s.keyUp k).v = s.v := rfl
@[simp] theorem keyUp_i (k : Fin 16) : (s.keyUp k).i = s.i := rfl
@[simp] theorem keyUp_pc (k : Fin 16) : (s.keyUp k).pc = s.pc := rfl
@[simp] theorem keyUp_stack (k : Fin 16) : (s.keyUp k).stack = s.stack := rfl
@[simp] theorem keyUp_sp (k : Fin 16) : (s.keyUp k).sp = s.sp := rfl
@[simp] theorem keyUp_dt (k : Fin 16) : (s.keyUp k).dt = s.dt := rfl
@[simp] theorem keyUp_st (k : Fin 16) : (s.keyUp k).st = s.st := rfl
@[simp] theorem keyUp_key (k : Fin 16) : (s.keyUp k).key = s.key.set k.val false := rfl
@[simp] theorem keyUp_fb (k : Fin 16) : (s.keyUp k).fb = s.fb := rfl
@[simp] theorem keyUp_shiftQuirk (k : Fin 16) : (s.keyUp k).shiftQuirk = s.shiftQuirk := rfl
@[simp] theorem keyUp_loadStoreQuirk (k : Fin 16) : (s.keyUp k).loadStoreQuirk = s.loadStoreQuirk := rfl
@[simp] theorem keyUp_font (k : Fin 16) : (s.keyUp k).font = s.font := rfl
@[simp] theorem keyUp_draw (k : Fin 16) : (s.keyUp k).draw = s.draw := rfl
@[simp] theorem keyUp_fault (k : Fin 16) : (s.keyUp k).fault = s.fault := rfl
@[simp] theorem keyUp_random (k : Fin 16) : (s.keyUp k).random = s.random := rfl
@[simp] theorem keyUp_draws (k : Fin 16) : (s.keyUp k).draws = s.draws := rfl

@[simp] theorem faultedAt_mem (k : FaultKind) (w : Option Word) (p : Word) (n : Nat) : (s.faultedAt k w p n).mem = s.mem := rfl
@[simp] theorem faultedAt_v (k : FaultKind) (w : Option Word) (p : Word) (n : Nat) : (s.faultedAt k w p n).v = s.v := rfl
@[simp] theorem faultedAt_i (k : FaultKind) (w : Option Word) (p : Word) (n : Nat) : (s.faultedAt k w p n).i = s.i := rfl
@[simp] theorem faultedAt_pc (k : FaultKind) (w : Option Word) (p : Word) (n : Nat) : (s.faultedAt k w p n).pc = p := rfl
@[simp] theorem faultedAt_stack (k : FaultKind) (w : Option Word) (p : Word) (n : Nat) : (s.faultedAt k w p n).stack = s.stack := rfl
@[simp] theorem faultedAt_sp (k : FaultKind) (w : Option Word) (p : Word) (n : Nat) : (s.faultedAt k w p n).sp = s.sp := rfl
@[simp] theorem faultedAt_dt (k : FaultKind) (w : Option Word) (p : Word) (n : Nat) : (s.faultedAt k w p n).dt = s.dt := rfl
@[simp] theorem faultedAt_st (k : FaultKind) (w : Option Word) (p : Word) (n : Nat) : (s.faultedAt k w p n).st = s.st := rfl
@[simp] theorem faultedAt_key (k : FaultKind) (w : Option Word) (p : Word) (n : Nat) : (s.faultedAt k w p n).key = s.key := rfl
@[simp] theorem faultedAt_fb (k : FaultKind) (w : Option Word) (p : Word) (n : Nat) : (s.faultedAt k w p n).fb = s.fb := rfl
@[simp] theorem faultedAt_shiftQuirk (k : FaultKind) (w : Option Word) (p : Word) (n : Nat) : (s.faultedAt k w p n).shiftQuirk = s.shiftQuirk := rfl
@[simp] theorem faultedAt_loadStoreQuirk (k : FaultKind) (w : Option Word) (p : Word) (n : Nat) : (s.faultedAt k w p n).loadStoreQuirk = s.loadStoreQuirk := rfl
@[simp] theorem faultedAt_font (k : FaultKind) (w : Option Word) (p : Word) (n : Nat) : (s.faultedAt k w p n).font = s.font := rfl
@[simp] theorem faultedAt_draw (k : FaultKind) (w : Option Word) (p : Word) (n : Nat) : (s.faultedAt k w p n).draw = false := rfl
@[simp] theorem faultedAt_fault (k : FaultKind) (w : Option Word) (p : Word) (n : Nat) : (s.faultedAt k w p n).fault = some { kind := k, word := w, pc := p, info := n } := rfl
@[simp] theorem faultedAt_random (k : FaultKind) (w : Option Word) (p : Word) (n : Nat) : (s.faultedAt k w p n).random = s.random := rfl
@[simp] theorem faultedAt_draws (k : FaultKind) (w : Option Word) (p : Word) (n : Nat) : (s.faultedAt k w p n).draws = s.draws := rfl

/-- Raising a fault is R91's state: the operation and the sentence of the spec agree. -/
@[simp] theorem takeFault_eq_faultedAt (k : FaultKind) (w : Option Word) (p : Word) (n : Nat) :
    s.takeFault k w p n = s.faultedAt k w p n := rfl

/-- What `raise` answers, in one equation. -/
theorem raise_eq (k : FaultKind) (w : Word) (n : Nat) :
    raise k w n s = .next (s.faultedAt k (some w) (s.pc - 2) n) := rfl

/-- `done` answers a next state and changes nothing. -/
@[simp] theorem done_eq : done s = .next s := rfl

end Fields

section Registers
variable (s : State) (r q : RegIx) (b : Byte)

/-- A register read after a register write. -/
@[simp] theorem reg_setReg : (s.setReg r b).reg q = if q = r then b else s.reg q := by
  by_cases h : q = r
  · subst h; simp [State.reg, State.setReg]
  · have : r.val ≠ q.val := fun e => h (Fin.ext e.symm)
    simp [State.reg, State.setReg, h, Vector.getElem_set_ne, this]

/-- A register is its entry of the register file. -/
theorem reg_eq : s.reg r = s.v[r.val] := rfl

/-- The registers after Fx65's block load. -/
@[simp] theorem reg_loadRegsUpTo (x : RegIx) :
    (s.loadRegsUpTo x).reg r = if r ≤ x then s.readByte (s.blockAddr r.val) else s.reg r := by
  simp [State.reg, State.loadRegsUpTo]

@[simp] theorem reg_setI (a : Word) : (s.setI a).reg r = s.reg r := rfl
@[simp] theorem reg_jump (a : Word) : (s.jump a).reg r = s.reg r := rfl
@[simp] theorem reg_skipIf (c : Bool) : (s.skipIf c).reg r = s.reg r := rfl
@[simp] theorem reg_writeBytes (a : Nat) (bs : List Byte) : (s.writeBytes a bs).reg r = s.reg r := rfl
@[simp] theorem reg_advanceI (x : RegIx) : (s.advanceI x).reg r = s.reg r := rfl
@[simp] theorem reg_nextDraw : (s.nextDraw).reg r = s.reg r := rfl
@[simp] theorem reg_beginExecute : (s.beginExecute).reg r = s.reg r := rfl
@[simp] theorem reg_recordFault (r₀ : FaultRecord) : (s.recordFault r₀).reg r = s.reg r := rfl
@[simp] theorem reg_tickTimers : (s.tickTimers).reg r = s.reg r := rfl
@[simp] theorem reg_keyDown (k : Fin 16) : (s.keyDown k).reg r = s.reg r := rfl
@[simp] theorem reg_keyUp (k : Fin 16) : (s.keyUp k).reg r = s.reg r := rfl
@[simp] theorem reg_faultedAt (k : FaultKind) (w : Option Word) (p : Word) (n : Nat) : (s.faultedAt k w p n).reg r = s.reg r := rfl

end Registers

section Reads
variable (s : State) (a₀ : Nat)

@[simp] theorem readByte_setReg (r : RegIx) (b : Byte) : (s.setReg r b).readByte a₀ = s.readByte a₀ := rfl
@[simp] theorem readByte_setI (a : Word) : (s.setI a).readByte a₀ = s.readByte a₀ := rfl
@[simp] theorem readByte_jump (a : Word) : (s.jump a).readByte a₀ = s.readByte a₀ := rfl
@[simp] theorem readByte_skipIf (c : Bool) : (s.skipIf c).readByte a₀ = s.readByte a₀ := rfl
@[simp] theorem readByte_loadRegsUpTo (x : RegIx) : (s.loadRegsUpTo x).readByte a₀ = s.readByte a₀ := rfl
@[simp] theorem readByte_advanceI (x : RegIx) : (s.advanceI x).readByte a₀ = s.readByte a₀ := rfl
@[simp] theorem readByte_nextDraw : (s.nextDraw).readByte a₀ = s.readByte a₀ := rfl
@[simp] theorem readByte_beginExecute : (s.beginExecute).readByte a₀ = s.readByte a₀ := rfl
@[simp] theorem readByte_recordFault (r : FaultRecord) : (s.recordFault r).readByte a₀ = s.readByte a₀ := rfl
@[simp] theorem readByte_tickTimers : (s.tickTimers).readByte a₀ = s.readByte a₀ := rfl
@[simp] theorem readByte_keyDown (k : Fin 16) : (s.keyDown k).readByte a₀ = s.readByte a₀ := rfl
@[simp] theorem readByte_keyUp (k : Fin 16) : (s.keyUp k).readByte a₀ = s.readByte a₀ := rfl
@[simp] theorem readByte_faultedAt (k : FaultKind) (w : Option Word) (p : Word) (n : Nat) : (s.faultedAt k w p n).readByte a₀ = s.readByte a₀ := rfl
@[simp] theorem cell_setReg (r : RegIx) (b : Byte) : (s.setReg r b).cell a₀ = s.cell a₀ := rfl
@[simp] theorem cell_setI (a : Word) : (s.setI a).cell a₀ = s.cell a₀ := rfl
@[simp] theorem cell_jump (a : Word) : (s.jump a).cell a₀ = s.cell a₀ := rfl
@[simp] theorem cell_skipIf (c : Bool) : (s.skipIf c).cell a₀ = s.cell a₀ := rfl
@[simp] theorem cell_writeBytes (a : Nat) (bs : List Byte) : (s.writeBytes a bs).cell a₀ = s.cell a₀ := rfl
@[simp] theorem cell_loadRegsUpTo (x : RegIx) : (s.loadRegsUpTo x).cell a₀ = s.cell a₀ := rfl
@[simp] theorem cell_advanceI (x : RegIx) : (s.advanceI x).cell a₀ = s.cell a₀ := rfl
@[simp] theorem cell_nextDraw : (s.nextDraw).cell a₀ = s.cell a₀ := rfl
@[simp] theorem cell_beginExecute : (s.beginExecute).cell a₀ = s.cell a₀ := rfl
@[simp] theorem cell_recordFault (r : FaultRecord) : (s.recordFault r).cell a₀ = s.cell a₀ := rfl
@[simp] theorem cell_tickTimers : (s.tickTimers).cell a₀ = s.cell a₀ := rfl
@[simp] theorem cell_keyDown (k : Fin 16) : (s.keyDown k).cell a₀ = s.cell a₀ := rfl
@[simp] theorem cell_keyUp (k : Fin 16) : (s.keyUp k).cell a₀ = s.cell a₀ := rfl
@[simp] theorem cell_faultedAt (k : FaultKind) (w : Option Word) (p : Word) (n : Nat) : (s.faultedAt k w p n).cell a₀ = s.cell a₀ := rfl

end Reads

end Sys2Proof.Machine
end

