-- ==== Sys2Proof/Laws/Memory.lean ====
section
/-! SUPPORT. Memory: a read after a write, and every operation keeps the canonical form. -/

namespace Sys2Proof.Machine

section Lookup

theorem lookup_put (m : Memory) (a : Nat) (b : Byte) (c : Nat) :
    Memory.lookup (Memory.put m a b) c = if c = a then some b else Memory.lookup m c := by
  induction m with
  | nil => simp [Memory.put, Memory.lookup]
  | cons e m ih =>
    obtain ⟨k, d⟩ := e
    simp only [Memory.put]
    split
    · simp [Memory.lookup]
    · split
      · rename_i h; subst h
        simp only [Memory.lookup]; split <;> simp_all
      · rename_i h₁ h₂
        simp only [Memory.lookup, ih]
        by_cases hc : c = k
        · simp [hc, show k ≠ a by omega]
        · simp [hc]

theorem lookup_erase (m : Memory) (a c : Nat) :
    Memory.lookup (Memory.erase m a) c = if c = a then none else Memory.lookup m c := by
  induction m with
  | nil => simp [Memory.erase, Memory.lookup]
  | cons e m ih =>
    obtain ⟨k, d⟩ := e
    by_cases hk : k = a
    · subst hk
      have : Memory.erase ((k, d) :: m) k = Memory.erase m k := by simp [Memory.erase]
      rw [this, ih]; simp only [Memory.lookup]; split <;> rfl
    · have : Memory.erase ((k, d) :: m) a = (k, d) :: Memory.erase m a := by simp [Memory.erase, hk]
      rw [this]; simp only [Memory.lookup, ih]
      by_cases hc : c = k
      · simp [hc, hk]
      · simp [hc]

/-- A byte read after a byte written (R31). -/
theorem read_write (font : Vector Byte 80) (m : Memory) (a : Nat) (b : Byte) (c : Nat) :
    Memory.read font (Memory.write font m a b) c = if c = a then b else Memory.read font m c := by
  unfold Memory.read Memory.write
  split
  · rename_i h
    rw [lookup_erase]; split <;> simp_all
  · rw [lookup_put]; split <;> simp_all

/-- A byte read after consecutive bytes written: inside the block its byte, outside it the old byte. -/
theorem read_writeBytes (font : Vector Byte 80) (bs : List Byte) (m : Memory) (a c : Nat) :
    Memory.read font (Memory.writeBytes font m a bs) c =
      if h : a ≤ c ∧ c - a < bs.length then bs[c - a] else Memory.read font m c := by
  induction bs generalizing m a with
  | nil => simp [Memory.writeBytes]
  | cons b bs ih =>
    simp only [Memory.writeBytes, ih, read_write]
    by_cases h₁ : c = a
    · subst h₁; simp
    · by_cases h₂ : a + 1 ≤ c
      · have e : c - a = c - (a + 1) + 1 := by omega
        by_cases h₃ : c - (a + 1) < bs.length
        · have h₄ : a ≤ c ∧ c - a < (b :: bs).length := by simp; omega
          simp only [h₂, h₃, h₄, and_self, dite_true]
          simp [e]
        · have h₄ : ¬ (a ≤ c ∧ c - a < (b :: bs).length) := by simp; omega
          rw [dif_neg (by tauto), dif_neg h₄, if_neg h₁]
      · have h₄ : ¬ (a ≤ c ∧ c - a < (b :: bs).length) := by omega
        have h₅ : ¬ (a + 1 ≤ c ∧ c - (a + 1) < bs.length) := by omega
        simp only [h₁, h₄, h₅, dite_false, if_false]

end Lookup

section CanonicalForm
variable {font : Vector Byte 80}

theorem erase_wf {m : Memory} (h : Memory.wf font m) (a : Nat) : Memory.wf font (Memory.erase m a) :=
  ⟨h.1.filter _, fun c hc => h.2 c (List.mem_of_mem_filter hc)⟩

theorem mem_put {m : Memory} {a : Nat} {b : Byte} {c : Host.Cell} (h : c ∈ Memory.put m a b) :
    c = (a, b) ∨ c ∈ m := by
  induction m with
  | nil => exact .inl (by simpa [Memory.put] using h)
  | cons e m ih =>
    obtain ⟨k, d⟩ := e
    simp only [Memory.put] at h
    split at h
    · simpa using h
    · split at h
      · simp only [List.mem_cons] at h ⊢; tauto
      · simp only [List.mem_cons] at h ⊢
        rcases h with h | h
        · exact .inr (.inl h)
        · exact (ih h).imp id .inr

theorem put_wf {m : Memory} (h : Memory.wf font m) {a : Nat} {b : Byte} (ha : a < 0x1000)
    (hb : b ≠ Memory.initial font a) : Memory.wf font (Memory.put m a b) := by
  refine ⟨?_, fun c hc => ?_⟩
  · obtain ⟨hp, -⟩ := h
    induction m with
    | nil => simp [Memory.put]
    | cons e m ih =>
      obtain ⟨k, d⟩ := e
      rw [List.pairwise_cons] at hp
      simp only [Memory.put]
      split
      · rename_i hk
        refine List.pairwise_cons.2 ⟨fun c hc => ?_, List.pairwise_cons.2 hp⟩
        rcases List.mem_cons.1 hc with rfl | hc
        · exact hk
        · exact lt_trans hk (hp.1 c hc)
      · split
        · rename_i hk; subst hk
          exact List.pairwise_cons.2 hp
        · refine List.pairwise_cons.2 ⟨fun c hc => ?_, ih hp.2⟩
          rcases mem_put hc with rfl | hc
          · simp only; omega
          · exact hp.1 c hc
  · rcases mem_put hc with rfl | hc
    · exact ⟨ha, hb⟩
    · exact h.2 c hc

/-- A byte written below 0x1000 keeps the canonical form. -/
theorem write_wf {m : Memory} (h : Memory.wf font m) {a : Nat} (ha : a < 0x1000) (b : Byte) :
    Memory.wf font (Memory.write font m a b) := by
  unfold Memory.write
  split
  · exact erase_wf h a
  · exact put_wf h ha ‹_›

/-- Consecutive bytes written below 0x1000 keep the canonical form. -/
theorem writeBytes_wf (bs : List Byte) {m : Memory} (h : Memory.wf font m) {a : Nat}
    (ha : bs = [] ∨ a + bs.length ≤ 0x1000) : Memory.wf font (Memory.writeBytes font m a bs) := by
  induction bs generalizing m a with
  | nil => exact h
  | cons b bs ih =>
    simp only [List.length_cons, reduceCtorEq, false_or] at ha
    exact ih (write_wf h (by omega) b) (.inr (by omega))

/-- The memory of a new core lists nothing, which is canonical. -/
theorem nil_wf : Memory.wf font [] := by simp [Memory.wf]

/-- In a canonical memory, the byte looked up is the byte listed. -/
theorem lookup_eq_some_iff {m : Memory} (h : m.Pairwise fun c d => c.1 < d.1) (a : Nat) (b : Byte) :
    Memory.lookup m a = some b ↔ (a, b) ∈ m := by
  induction m with
  | nil => simp [Memory.lookup]
  | cons e m ih =>
    obtain ⟨k, d⟩ := e
    rw [List.pairwise_cons] at h
    simp only [Memory.lookup, List.mem_cons, Prod.mk.injEq]
    split
    · rename_i hk; subst hk
      have : (a, b) ∉ m := fun hm => absurd (h.1 _ hm) (by simp)
      simp [this, eq_comm]
    · rename_i hk; simp [hk, ih h.2]

/-- Two canonical memories that read alike are equal data. -/
theorem eq_of_read_eq {m m' : Memory} (h : Memory.wf font m) (h' : Memory.wf font m')
    (hr : ∀ a, Memory.read font m a = Memory.read font m' a) : m = m' := by
  have half : ∀ {m m' : Memory}, Memory.wf font m → Memory.wf font m' →
      (∀ a, Memory.read font m a = Memory.read font m' a) → ∀ c, c ∈ m → c ∈ m' := by
    intro m m' h h' hr c hc
    have hl := (lookup_eq_some_iff h.1 c.1 c.2).2 hc
    have hn := (h.2 c hc).2
    have e := hr c.1
    simp only [Memory.read, hl, Option.getD_some] at e
    cases hl' : Memory.lookup m' c.1 with
    | none => rw [hl'] at e; exact absurd e hn
    | some b =>
      rw [hl'] at e
      have : c.2 = b := by simpa using e
      exact (lookup_eq_some_iff h'.1 c.1 c.2).1 (this ▸ hl')
  have nodup : ∀ {m : Memory}, Memory.wf font m → m.Nodup := fun h =>
    h.1.imp fun hlt e => absurd hlt (by simp [e])
  have perm : m.Perm m' := (List.perm_ext_iff_of_nodup (nodup h) (nodup h')).2 fun c =>
    ⟨half h h' hr c, half h' h (fun a => (hr a).symm) c⟩
  exact perm.eq_of_pairwise (fun c d _ _ h₁ h₂ => absurd h₁ (by omega)) h.1 h'.1

end CanonicalForm

section States
variable (s : State)

theorem readByte_writeBytes (a : Nat) (bs : List Byte) (c : Nat) :
    (s.writeBytes a bs).readByte c = if h : a ≤ c ∧ c - a < bs.length then bs[c - a] else s.readByte c :=
  read_writeBytes s.font bs s.mem a c

/-- Inside the block, a store is read back (R31). -/
theorem readByte_writeBytes_inside (a : Nat) (bs : List Byte) (k : Nat) (h : k < bs.length) :
    (s.writeBytes a bs).readByte (a + k) = bs[k] := by
  rw [readByte_writeBytes, dif_pos ⟨by omega, by omega⟩]; simp

/-- Outside the block, a store changes nothing (R31). -/
theorem readByte_writeBytes_outside (a : Nat) (bs : List Byte) (c : Nat) (h : c < a ∨ a + bs.length ≤ c) :
    (s.writeBytes a bs).readByte c = s.readByte c := by
  rw [readByte_writeBytes, dif_neg (by omega)]

/-- What memory reads as after `new`: the font table, then zero (R26). -/
theorem readByte_new (sq lq : Bool) (font : Vector Byte 80) (a : Nat) :
    (State.new sq lq font).readByte a = Memory.initial font a := rfl

@[simp] theorem readBytes_length (a n : Nat) : (s.readBytes a n).length = n := by simp [State.readBytes]

@[simp] theorem readBytes_getElem (a n k : Nat) (h : k < (s.readBytes a n).length) :
    (s.readBytes a n)[k] = s.readByte (a + k) := by simp [State.readBytes]

end States

end Sys2Proof.Machine
end

