-- ==== Sys2Proof/Laws/Display.lean ====
section
/-! SUPPORT. The framebuffer: a cell read after a toggle, and what a whole sprite draw leaves (43_display.md R77 to R80). -/

namespace Sys2Proof.Machine

/-- A cell read after a cell below 2048 is toggled (R80). -/
theorem cell_toggle (fb : Framebuffer) {i : Nat} (hi : i < 2048) (j : Nat) :
    Framebuffer.cell (Framebuffer.toggle fb i) j = (Framebuffer.cell fb j ^^ decide (j = i)) := by
  have hr : i / 64 < 32 := by omega
  unfold Framebuffer.cell Framebuffer.toggle
  rw [Vector.getElem?_setIfInBounds]
  by_cases h : i / 64 = j / 64
  · rw [if_pos h, if_pos hr, ← h]
    have : (decide (i % 64 = j % 64)) = decide (j = i) := decide_eq_decide.2 (by omega)
    simp only [Option.getD_some, BitVec.getLsbD_xor, BitVec.getLsbD_twoPow, ← this]
    simp [show i % 64 < 64 by omega]
  · rw [if_neg h, show decide (j = i) = false from decide_eq_false (by omega), Bool.xor_false]

/-- Every cell of the blank framebuffer is 0 (R26, R79). -/
@[simp] theorem cell_blank (i : Nat) : Framebuffer.cell Framebuffer.blank i = false := by
  unfold Framebuffer.cell Framebuffer.blank
  rw [Vector.getElem?_replicate]; split <;> simp

theorem pixelIndex_lt (px py : Byte) (row col : Nat) : pixelIndex px py row col < 2048 :=
  Nat.mod_lt _ (by decide)

/-- Within one sprite no cell is met twice (R80's corner cases). -/
theorem pixelIndex_inj {px py : Byte} {row row' col col' : Nat} (hr : row < 16) (hr' : row' < 16) (hc : col < 8)
    (hc' : col' < 8) (h : pixelIndex px py row col = pixelIndex px py row' col') : row = row' ∧ col = col' := by
  unfold pixelIndex at h; omega

/-- The cells that the columns `cols` of a row touch: the sprite's bit is set and the index is `j`. -/
def rowHits (px py : Byte) (row : Nat) (b : Byte) (cols : List Nat) (j : Nat) : Bool :=
  cols.any fun col => spriteBit b col && decide (pixelIndex px py row col = j)

/-- The cells that a sprite's rows touch. -/
def spriteHits (px py : Byte) : Nat → List Byte → Nat → Bool
  | _, [], _ => false
  | row, b :: bs, j => rowHits px py row b (List.range 8) j || spriteHits px py (row + 1) bs j

theorem rowHits_iff {px py : Byte} {row : Nat} {b : Byte} {cols : List Nat} {j : Nat} :
    rowHits px py row b cols j = true ↔ ∃ col ∈ cols, spriteBit b col = true ∧ pixelIndex px py row col = j := by
  simp [rowHits]

theorem spriteHits_iff {px py : Byte} {row : Nat} {bs : List Byte} {j : Nat} :
    spriteHits px py row bs j = true ↔
      ∃ (r : Nat) (h : r < bs.length), ∃ col < 8, spriteBit bs[r] col = true ∧ pixelIndex px py (row + r) col = j := by
  induction bs generalizing row with
  | nil => simp [spriteHits]
  | cons b bs ih =>
    simp only [spriteHits, Bool.or_eq_true, rowHits_iff, ih, List.mem_range]
    constructor
    · rintro (⟨c, hc, h⟩ | ⟨r, hr, c, hc, h⟩)
      · exact ⟨0, by simp, c, hc, by simpa using h⟩
      · refine ⟨r + 1, by simpa using hr, c, hc, ?_⟩
        simpa [show row + (r + 1) = row + 1 + r by omega] using h
    · rintro ⟨r, hr, c, hc, h⟩
      cases r with
      | zero => exact .inl ⟨c, hc, by simpa using h⟩
      | succ r =>
        refine .inr ⟨r, by simpa using hr, c, hc, ?_⟩
        simpa [show row + (r + 1) = row + 1 + r by omega] using h

/-- Folding over distinct columns toggles exactly the touched cells, and a collision is a touched cell that was 1. -/
theorem drawCols_spec {px py : Byte} {row : Nat} (hr : row < 16) (b : Byte) (cols : List Nat) (hn : cols.Nodup)
    (h8 : ∀ c ∈ cols, c < 8) (d : Framebuffer × Bool) :
    (∀ j, Framebuffer.cell (cols.foldl (drawPixel px py row b) d).1 j =
      (Framebuffer.cell d.1 j ^^ rowHits px py row b cols j)) ∧
    ((cols.foldl (drawPixel px py row b) d).2 = true ↔
      d.2 = true ∨ ∃ j, rowHits px py row b cols j = true ∧ Framebuffer.cell d.1 j = true) := by
  induction cols generalizing d with
  | nil => simp [rowHits]
  | cons c cols ih =>
    rw [List.nodup_cons] at hn
    have hc : c < 8 := h8 c (by simp)
    have ih := ih hn.2 (fun c' h => h8 c' (by simp [h])) (drawPixel px py row b d c)
    simp only [List.foldl_cons]
    by_cases hb : spriteBit b c = true
    · have fresh : rowHits px py row b cols (pixelIndex px py row c) = false := by
        rw [Bool.eq_false_iff, ne_eq, rowHits_iff]
        rintro ⟨c', hc', -, e⟩
        exact hn.1 ((pixelIndex_inj hr hr (h8 c' (by simp [hc'])) hc e).2 ▸ hc')
      have e₁ : (drawPixel px py row b d c).1 = Framebuffer.toggle d.1 (pixelIndex px py row c) := by
        simp [drawPixel, hb]
      have e₂ : (drawPixel px py row b d c).2 = (d.2 || Framebuffer.cell d.1 (pixelIndex px py row c)) := by
        simp [drawPixel, hb]
      have hit : ∀ j, rowHits px py row b (c :: cols) j =
          (decide (j = pixelIndex px py row c) || rowHits px py row b cols j) := by
        intro j; simp [rowHits, hb, eq_comm]
      rw [e₁, e₂] at ih
      simp only [cell_toggle _ (pixelIndex_lt px py row c)] at ih
      refine ⟨fun j => ?_, ?_⟩
      · rw [ih.1, hit]
        by_cases hj : j = pixelIndex px py row c
        · subst hj; simp [fresh]
        · simp [hj]
      · rw [ih.2]
        simp only [hit, Bool.or_eq_true, decide_eq_true_eq, or_assoc]
        refine or_congr_right ⟨?_, ?_⟩
        · rintro (h | ⟨j, hj, h⟩)
          · exact ⟨_, .inl rfl, h⟩
          · have hne : j ≠ pixelIndex px py row c := by rintro rfl; simp [fresh] at hj
            exact ⟨j, .inr hj, by simpa [hne] using h⟩
        · rintro ⟨j, hj | hj, h⟩
          · subst hj; exact .inl h
          · have hne : j ≠ pixelIndex px py row c := by rintro rfl; simp [fresh] at hj
            exact .inr ⟨j, hj, by simpa [hne] using h⟩
    · have e : drawPixel px py row b d c = d := by simp [drawPixel, hb]
      have hit : ∀ j, rowHits px py row b (c :: cols) j = rowHits px py row b cols j := by
        intro j; simp [rowHits, hb]
      rw [e] at ih ⊢
      simpa only [hit] using ih

/-- Rows of one sprite never touch a cell twice. -/
theorem rowHits_disjoint_spriteHits {px py : Byte} {row : Nat} {b : Byte} {bs : List Byte} {j : Nat}
    (hr : row + 1 + bs.length ≤ 16) (h : rowHits px py row b (List.range 8) j = true) :
    spriteHits px py (row + 1) bs j = false := by
  rw [Bool.eq_false_iff, ne_eq, spriteHits_iff]
  rintro ⟨r, hr', c', hc', -, e'⟩
  obtain ⟨c, hc, -, e⟩ := rowHits_iff.1 h
  have := (pixelIndex_inj (by omega) (by omega) (List.mem_range.1 hc) hc' (e.trans e'.symm)).1
  omega

/-- THE WHOLE DRAW of at most 15 rows: exactly the touched cells are toggled, and a collision is a touched cell that was 1
before the draw (R80). -/
theorem drawRows_spec {px py : Byte} (row : Nat) (bs : List Byte) (hr : row + bs.length ≤ 16)
    (d : Framebuffer × Bool) :
    (∀ j, Framebuffer.cell (drawRows px py row bs d).1 j = (Framebuffer.cell d.1 j ^^ spriteHits px py row bs j)) ∧
    ((drawRows px py row bs d).2 = true ↔
      d.2 = true ∨ ∃ j, spriteHits px py row bs j = true ∧ Framebuffer.cell d.1 j = true) := by
  induction bs generalizing row d with
  | nil => simp [drawRows, spriteHits]
  | cons b bs ih =>
    simp only [List.length_cons] at hr
    have h₁ := drawCols_spec (px := px) (py := py) (row := row) (by omega) b (List.range 8) List.nodup_range
      (fun c hc => List.mem_range.1 hc) d
    have h₂ := ih (row + 1) (by omega) (drawRow px py row b d)
    simp only [drawRows, spriteHits]
    unfold drawRow at h₂ ⊢
    have dis : ∀ j, rowHits px py row b (List.range 8) j = true → spriteHits px py (row + 1) bs j = false :=
      fun j => rowHits_disjoint_spriteHits (by omega)
    refine ⟨fun j => ?_, ?_⟩
    · rw [h₂.1, h₁.1]
      cases h : rowHits px py row b (List.range 8) j
      · simp
      · simp [dis j h]
    · rw [h₂.2, h₁.2, or_assoc]
      refine or_congr_right ⟨?_, ?_⟩
      · rintro (⟨j, hj, h⟩ | ⟨j, hj, h⟩)
        · exact ⟨j, by simp [hj], h⟩
        · cases hh : rowHits px py row b (List.range 8) j
          · exact ⟨j, by simp [hj], by simpa [h₁.1, hh] using h⟩
          · simp [dis j hh] at hj
      · rintro ⟨j, hj, h⟩
        cases hh : rowHits px py row b (List.range 8) j
        · exact .inr ⟨j, by simpa [hh] using hj, by simp [h₁.1, hh, h]⟩
        · exact .inl ⟨j, hh, h⟩

/-- Two framebuffers whose 2048 cells agree are equal data. -/
theorem framebuffer_ext {f g : Framebuffer} (h : ∀ j < 2048, Framebuffer.cell f j = Framebuffer.cell g j) : f = g := by
  apply Vector.ext; intro r hr
  apply BitVec.eq_of_getLsbD_eq; intro c hc
  have := h (c + 64 * r) (by omega)
  unfold Framebuffer.cell at this
  rw [show (c + 64 * r) / 64 = r by omega, show (c + 64 * r) % 64 = c by omega] at this
  simpa [hr] using this

end Sys2Proof.Machine
end

