-- ==== Sys2Proof/Laws/Ops.lean ====
section
/-! SUPPORT. One lemma per shared operation that says everything it can do, for later proofs to cite. -/

namespace Sys2Proof.Machine

section Stack
variable (s : State) (value : Word)

/-- A push fails exactly at SP = 16 (R14, R51). -/
theorem push_eq_none_iff : s.push value = none ↔ s.sp.val = 16 := by
  unfold State.push; split <;> simp <;> omega

/-- A push that succeeds writes the slot at SP and nothing else, and raises SP by 1 (R14). -/
theorem push_eq_some_iff (t : State) : s.push value = some t ↔
    ∃ h : s.sp.val < 16, t = { s with stack := s.stack.set s.sp.val value, sp := ⟨s.sp.val + 1, by omega⟩ } := by
  unfold State.push; split <;> simp_all [eq_comm]

/-- A pop fails exactly at SP = 0 (R14, R49). -/
theorem pop_eq_none_iff : s.pop = none ↔ s.sp.val = 0 := by
  unfold State.pop; split <;> simp <;> omega

/-- A pop that succeeds lowers SP by 1, changes nothing else, and gives the slot at the new SP (R13, R14). -/
theorem pop_eq_some_iff (t : State) (a : Word) : s.pop = some (t, a) ↔
    ∃ h : 0 < s.sp.val, t = { s with sp := ⟨s.sp.val - 1, by omega⟩ } ∧ a = s.stack[s.sp.val - 1] := by
  unfold State.pop; split <;> simp_all [eq_comm]

end Stack

section Blocks
variable (s : State)

/-- A block is in range exactly when it is empty or ends below 0x1000 (R29, R80). -/
@[simp] theorem blockInRange_iff (a n : Nat) : blockInRange a n = true ↔ n = 0 ∨ a + n ≤ 0x1000 := by
  simp [blockInRange]

@[simp] theorem blockAddr_eq (k : Nat) : s.blockAddr k = s.i.toNat + k := rfl

@[simp] theorem lowestOutOfRange_eq (a : Nat) : lowestOutOfRange a = max a 0x1000 := rfl

@[simp] theorem regsUpTo_length (x : RegIx) : (s.regsUpTo x).length = x.val + 1 := by
  simp only [State.regsUpTo, List.length_take, Vector.length_toList]; omega

@[simp] theorem regsUpTo_getElem (x : RegIx) (k : Nat) (h : k < (s.regsUpTo x).length) :
    (s.regsUpTo x)[k] = s.reg ⟨k, by rw [regsUpTo_length] at h; omega⟩ := by
  simp [State.regsUpTo, State.reg]

@[simp] theorem bcdDigits_length (b : Byte) : (bcdDigits b).length = 3 := rfl

end Blocks

section Keys
variable (s : State)

/-- The level of one of the 16 keys (R17). -/
theorem keyPressed_eq (k : Fin 16) : s.keyPressed k.val = s.key[k.val] := by simp [State.keyPressed]

/-- A first pressed key is pressed, and no key below it is (R84). -/
theorem firstPressed_eq_some_iff (k : Nat) : s.firstPressed = some k ↔
    k < 16 ∧ s.keyPressed k = true ∧ ∀ j < k, s.keyPressed j = false := by
  simp only [State.firstPressed, List.find?_range_eq_some, List.mem_range]
  constructor
  · rintro ⟨h, hk, hj⟩; exact ⟨hk, h, fun j hj' => by simpa using hj j hj'⟩
  · rintro ⟨hk, h, hj⟩; exact ⟨h, hk, fun j hj' => by simpa using hj j hj'⟩

/-- No first pressed key: no key is pressed (R84). -/
theorem firstPressed_eq_none_iff : s.firstPressed = none ↔ ∀ k < 16, s.keyPressed k = false := by
  simp [State.firstPressed]

end Keys

section Fetch
variable (s : State)

/-- A fetch below 0xFFF reads two bytes, big-endian (R32). -/
theorem fetchWord_of_lt (h : s.pc.toNat < 0xFFF) :
    s.fetchWord = some (wordOfBytes (s.readByte s.pc.toNat) (s.readByte (s.pc.toNat + 1))) := if_pos h

/-- A fetch gives no word exactly at 0xFFF and above (R32). -/
theorem fetchWord_eq_none_iff : s.fetchWord = none ↔ 0xFFF ≤ s.pc.toNat := by
  unfold State.fetchWord; split <;> simp <;> omega

end Fetch

section Flags

@[simp] theorem carry_iff (a b : Byte) : carry a b = true ↔ a.toNat + b.toNat > 255 := by simp [carry]

@[simp] theorem borrow_iff (a b : Byte) : borrow a b = true ↔ a.toNat < b.toNat := by simp [borrow]

end Flags

section StepLaws
variable (s : State)

/-- A halted core's step changes nothing (R92). -/
theorem step_of_halted (h : s.fault ≠ none) : step s = .next s := by
  unfold step; rw [if_pos (Option.isSome_iff_ne_none.2 h)]

/-- The step of a core that is not halted is its cycle (R40). -/
theorem step_of_running (h : s.fault = none) : step s = cycle s := by
  unfold step; rw [if_neg (by simp [h])]

/-- Everything a cycle can do: the fetch faults, the word is unknown, or the decoded instruction executes (R40, R93). -/
theorem cycle_cases :
    (0xFFF ≤ s.pc.toNat ∧ cycle s = .next (s.faultedAt (.outOfBounds .fetch) none s.pc s.pc.toNat)) ∨
    (s.pc.toNat < 0xFFF ∧ ∃ w, s.fetchWord = some w ∧
      ((∃ e, decodeWord w = .error e ∧ cycle s = .next (s.faultedAt .unknownOpcode (some w) s.pc w.toNat)) ∨
       (∃ i, decodeWord w = .ok i ∧ cycle s = exec i s.beginExecute))) := by
  by_cases h : s.pc.toNat < 0xFFF
  · refine .inr ⟨h, _, fetchWord_of_lt s h, ?_⟩
    cases hd : decodeWord (wordOfBytes (s.readByte s.pc.toNat) (s.readByte (s.pc.toNat + 1))) with
    | error e => exact .inl ⟨e, rfl, by simp [cycle, fetchWord_of_lt s h, hd, raiseUnknown]⟩
    | ok i => exact .inr ⟨i, rfl, by simp [cycle, fetchWord_of_lt s h, hd]⟩
  · have h' := (fetchWord_eq_none_iff s).2 (by omega)
    exact .inl ⟨by omega, by simp [cycle, h', raiseFetch]⟩

end StepLaws

end Sys2Proof.Machine
end

