-- ==== Sys2Proof/Laws/PerInstr.lean ====
section
/-! SUPPORT. What holds of every instruction as syntax, one lemma per constructor: its word carries its opcode-table row's
match under the row's mask (30_encoding.md R44, spec/opcode_table.json). -/

namespace Sys2Proof

theorem wordA_and (op p : Nibble) (nnn q : Addr) : wordA op nnn &&& wordA p q = wordA (op &&& p) (nnn &&& q) :=
  BitVec.and_append

theorem wordXNN_and (op x nn p q r) : wordXNN op x nn &&& wordXNN p q r = wordXNN (op &&& p) (x &&& q) (nn &&& r) := by
  apply BitVec.eq_of_getLsbD_eq; intro k _
  simp only [wordXNN, BitVec.getLsbD_and, BitVec.getLsbD_append]
  split_ifs <;> rfl

theorem wordXYN_and (op x y n p q r t) :
    wordXYN op x y n &&& wordXYN p q r t = wordXYN (op &&& p) (x &&& q) (y &&& r) (n &&& t) := by
  apply BitVec.eq_of_getLsbD_eq; intro k _
  simp only [wordXYN, BitVec.getLsbD_and, BitVec.getLsbD_append]
  split_ifs <;> rfl

theorem wordA_masked (op : Nibble) (nnn : Addr) : wordA op nnn &&& 0xF000#16 = wordA op 0#12 := by
  have : 0xF000#16 = wordA 0xF#4 0#12 := by decide
  rw [this, wordA_and, show (0xF#4 : Nibble) = BitVec.allOnes 4 from rfl, BitVec.and_allOnes, BitVec.and_zero]

theorem wordXNN_masked (op x : Nibble) (nn : Byte) : wordXNN op x nn &&& 0xF000#16 = wordXNN op 0#4 0#8 := by
  have : 0xF000#16 = wordXNN 0xF#4 0#4 0#8 := by decide
  rw [this, wordXNN_and, show (0xF#4 : Nibble) = BitVec.allOnes 4 from rfl, BitVec.and_allOnes, BitVec.and_zero,
    BitVec.and_zero]

theorem wordXNN_masked_low (op x : Nibble) (nn : Byte) : wordXNN op x nn &&& 0xF0FF#16 = wordXNN op 0#4 nn := by
  have : 0xF0FF#16 = wordXNN 0xF#4 0#4 0xFF#8 := by decide
  rw [this, wordXNN_and, show (0xF#4 : Nibble) = BitVec.allOnes 4 from rfl, BitVec.and_allOnes, BitVec.and_zero,
    show (0xFF#8 : Byte) = BitVec.allOnes 8 from rfl, BitVec.and_allOnes]

theorem wordXYN_masked (op x y n : Nibble) : wordXYN op x y n &&& 0xF000#16 = wordXYN op 0#4 0#4 0#4 := by
  have : 0xF000#16 = wordXYN 0xF#4 0#4 0#4 0#4 := by decide
  rw [this, wordXYN_and, show (0xF#4 : Nibble) = BitVec.allOnes 4 from rfl, BitVec.and_allOnes]
  simp only [BitVec.and_zero]

theorem wordXYN_masked_low (op x y n : Nibble) : wordXYN op x y n &&& 0xF00F#16 = wordXYN op 0#4 0#4 n := by
  have : 0xF00F#16 = wordXYN 0xF#4 0#4 0#4 0xF#4 := by decide
  rw [this, wordXYN_and, show (0xF#4 : Nibble) = BitVec.allOnes 4 from rfl]
  simp only [BitVec.and_allOnes, BitVec.and_zero]

end Sys2Proof

namespace Sys2Proof.Laws.EncodesTableRow

/-- The instruction's word, under its row's mask, is its row's match. -/
def Statement (i : Instr) : Prop := encode i &&& (tableMaskMatch i).1 = (tableMaskMatch i).2

theorem cls : Statement .cls := by
  unfold Statement; decide

theorem ret : Statement .ret := by
  unfold Statement; decide

theorem sys (nnn : Addr) : Statement (.sys nnn) := (wordA_masked _ _).trans rfl

theorem jp (nnn : Addr) : Statement (.jp nnn) := (wordA_masked _ _).trans rfl

theorem call (nnn : Addr) : Statement (.call nnn) := (wordA_masked _ _).trans rfl

theorem seImm (x : RegIx) (nn : Byte) : Statement (.seImm x nn) := (wordXNN_masked _ _ _).trans rfl

theorem sneImm (x : RegIx) (nn : Byte) : Statement (.sneImm x nn) := (wordXNN_masked _ _ _).trans rfl

theorem seReg (x : RegIx) (y : RegIx) : Statement (.seReg x y) := (wordXYN_masked_low _ _ _ _).trans rfl

theorem ldImm (x : RegIx) (nn : Byte) : Statement (.ldImm x nn) := (wordXNN_masked _ _ _).trans rfl

theorem addImm (x : RegIx) (nn : Byte) : Statement (.addImm x nn) := (wordXNN_masked _ _ _).trans rfl

theorem ldReg (x : RegIx) (y : RegIx) : Statement (.ldReg x y) := (wordXYN_masked_low _ _ _ _).trans rfl

theorem orReg (x : RegIx) (y : RegIx) : Statement (.orReg x y) := (wordXYN_masked_low _ _ _ _).trans rfl

theorem andReg (x : RegIx) (y : RegIx) : Statement (.andReg x y) := (wordXYN_masked_low _ _ _ _).trans rfl

theorem xorReg (x : RegIx) (y : RegIx) : Statement (.xorReg x y) := (wordXYN_masked_low _ _ _ _).trans rfl

theorem addReg (x : RegIx) (y : RegIx) : Statement (.addReg x y) := (wordXYN_masked_low _ _ _ _).trans rfl

theorem subReg (x : RegIx) (y : RegIx) : Statement (.subReg x y) := (wordXYN_masked_low _ _ _ _).trans rfl

theorem shrReg (x : RegIx) (y : RegIx) : Statement (.shrReg x y) := (wordXYN_masked_low _ _ _ _).trans rfl

theorem subnReg (x : RegIx) (y : RegIx) : Statement (.subnReg x y) := (wordXYN_masked_low _ _ _ _).trans rfl

theorem shlReg (x : RegIx) (y : RegIx) : Statement (.shlReg x y) := (wordXYN_masked_low _ _ _ _).trans rfl

theorem sneReg (x : RegIx) (y : RegIx) : Statement (.sneReg x y) := (wordXYN_masked_low _ _ _ _).trans rfl

theorem ldI (nnn : Addr) : Statement (.ldI nnn) := (wordA_masked _ _).trans rfl

theorem jpV0 (nnn : Addr) : Statement (.jpV0 nnn) := (wordA_masked _ _).trans rfl

theorem rnd (x : RegIx) (nn : Byte) : Statement (.rnd x nn) := (wordXNN_masked _ _ _).trans rfl

theorem drw (x : RegIx) (y : RegIx) (n : Nibble) : Statement (.drw x y n) := (wordXYN_masked _ _ _ _).trans rfl

theorem skp (x : RegIx) : Statement (.skp x) := (wordXNN_masked_low _ _ _).trans rfl

theorem sknp (x : RegIx) : Statement (.sknp x) := (wordXNN_masked_low _ _ _).trans rfl

theorem ldVxDt (x : RegIx) : Statement (.ldVxDt x) := (wordXNN_masked_low _ _ _).trans rfl

theorem ldVxK (x : RegIx) : Statement (.ldVxK x) := (wordXNN_masked_low _ _ _).trans rfl

theorem ldDtVx (x : RegIx) : Statement (.ldDtVx x) := (wordXNN_masked_low _ _ _).trans rfl

theorem ldStVx (x : RegIx) : Statement (.ldStVx x) := (wordXNN_masked_low _ _ _).trans rfl

theorem addIVx (x : RegIx) : Statement (.addIVx x) := (wordXNN_masked_low _ _ _).trans rfl

theorem ldFVx (x : RegIx) : Statement (.ldFVx x) := (wordXNN_masked_low _ _ _).trans rfl

theorem ldBVx (x : RegIx) : Statement (.ldBVx x) := (wordXNN_masked_low _ _ _).trans rfl

theorem ldMemVx (x : RegIx) : Statement (.ldMemVx x) := (wordXNN_masked_low _ _ _).trans rfl

theorem ldVxMem (x : RegIx) : Statement (.ldVxMem x) := (wordXNN_masked_low _ _ _).trans rfl

end Sys2Proof.Laws.EncodesTableRow
end

