-- ==== Sys2Proof/Laws/Transactions.lean ====
section
/-! SUPPORT. What the host's `new` and `step` transactions leave and report, for later proofs to cite
(60_exceptions.md R96, 70_reset_and_hazards.md R105). -/

namespace Sys2Proof.Machine

section Renew
variable (s : State) (sq lq : Bool) (font : Vector Byte 80)

@[simp] theorem renew_mem : (s.renew sq lq font).mem = [] := rfl
@[simp] theorem renew_v : (s.renew sq lq font).v = Vector.replicate 16 0 := rfl
@[simp] theorem renew_i : (s.renew sq lq font).i = 0 := rfl
@[simp] theorem renew_pc : (s.renew sq lq font).pc = 0x200 := rfl
@[simp] theorem renew_stack : (s.renew sq lq font).stack = Vector.replicate 16 0 := rfl
@[simp] theorem renew_sp : (s.renew sq lq font).sp = 0 := rfl
@[simp] theorem renew_dt : (s.renew sq lq font).dt = 0 := rfl
@[simp] theorem renew_st : (s.renew sq lq font).st = 0 := rfl
@[simp] theorem renew_key : (s.renew sq lq font).key = Vector.replicate 16 false := rfl
@[simp] theorem renew_fb : (s.renew sq lq font).fb = Framebuffer.blank := rfl
@[simp] theorem renew_shiftQuirk : (s.renew sq lq font).shiftQuirk = sq := rfl
@[simp] theorem renew_loadStoreQuirk : (s.renew sq lq font).loadStoreQuirk = lq := rfl
@[simp] theorem renew_font : (s.renew sq lq font).font = font := rfl
@[simp] theorem renew_draw : (s.renew sq lq font).draw = false := rfl
@[simp] theorem renew_fault : (s.renew sq lq font).fault = none := rfl
@[simp] theorem renew_random : (s.renew sq lq font).random = s.random := rfl
@[simp] theorem renew_draws : (s.renew sq lq font).draws = s.draws := rfl

end Renew

section StepTransaction
variable {s t : State}

/-- A running core's step with a byte presented is the step of the state with that byte at its RANDOM input. -/
theorem stepWith_of_running (h : s.fault = none) (r : Byte) : stepWith r s = step { s with random := r } := by
  unfold stepWith; rw [if_neg (by simp [h])]

/-- The reply and the state of a running core's `step` transaction, from the step it takes (R96). -/
theorem transact_step_of_next {r : Byte} (h : s.fault = none) (e : step { s with random := r } = .next t) :
    transact (.step r) s = (.stepped t.draw t.fault, t) := by
  simp only [transact, stepWith_of_running h, e, stateAfter]

end StepTransaction

end Sys2Proof.Machine
end

