-- ==== Sys2Proof/Tests/Slice0.lean ====
section
/-! SUPPORT. The model's own tests. Expected results are those of spec/95_test_vectors.md (V<n>, E<n> name its vectors) or
worked by hand from the rule named; then one witness per statement that has hypotheses. -/

namespace Sys2Proof.Tests

open Sys2Proof.Machine

section Helpers

/-- The conventional font (93_implementation_defined.md G1), as a test input only. -/
def fontG1 : Vector Byte 80 := #v[
  0xF0, 0x90, 0x90, 0x90, 0xF0, 0x20, 0x60, 0x20, 0x20, 0x70, 0xF0, 0x10, 0xF0, 0x80, 0xF0, 0xF0, 0x10, 0xF0, 0x10, 0xF0,
  0x90, 0x90, 0xF0, 0x10, 0x10, 0xF0, 0x80, 0xF0, 0x10, 0xF0, 0xF0, 0x80, 0xF0, 0x90, 0xF0, 0xF0, 0x10, 0x20, 0x40, 0x40,
  0xF0, 0x90, 0xF0, 0x90, 0xF0, 0xF0, 0x90, 0xF0, 0x10, 0xF0, 0xF0, 0x90, 0xF0, 0x90, 0x90, 0xE0, 0x90, 0xE0, 0x90, 0xE0,
  0xF0, 0x80, 0x80, 0x80, 0xF0, 0xE0, 0x90, 0x90, 0x90, 0xE0, 0xF0, 0x80, 0xF0, 0x80, 0xF0, 0xF0, 0x80, 0xF0, 0x80, 0x80]

/-- A new core with the quirk bits `sq` and `lq` and the byte A7 at its RANDOM input. -/
def core (sq lq : Bool) : State := { State.new sq lq fontG1 with random := 0xA7 }

/-- A new core with both quirk bits false. -/
def c0 : State := core false false

/-- A step's answer is a next state of which `p` holds. -/
def answers (o : Result) (p : State → Bool) : Bool :=
  match o with
  | .next t => p t
  | .fault _ => false
  | .refused _ => false

/-- One step of `s` with the word `w` where it fetches. -/
def run (w : Word) (s : State) : Result := step (s.placeWord w)

/-- After one step of `w` from `s`: the pc is `pc`, no fault is set, and `p` holds. -/
def runs (w : Word) (s : State) (pc : Word) (p : State → Bool) : Bool :=
  answers (run w s) fun t => t.pc == pc && t.fault == none && p t

/-- One step of `w` from `s` faults precisely: the record is `(k, word, pc, info)` and `p` holds of the state. -/
def faults (w : Word) (s : State) (k : FaultKind) (word : Option Word) (info : Nat) (p : State → Bool) : Bool :=
  answers (run w s) fun t =>
    t.fault == some { kind := k, word := word, pc := s.pc, info := info } && t.pc == s.pc && !t.draw && p t

/-- The cells of a framebuffer that are 1, among the first `n`. -/
def litBelow (n : Nat) (s : State) : List Nat := (List.range n).filter fun i => s.cell i

/-- `c0` with some registers set. -/
def regs (s : State) (l : List (RegIx × Byte)) : State := l.foldl (fun s p => s.setReg p.1 p.2) s

end Helpers

section WellFormedSmoke

theorem test_sys_of_cls_word_is_ill_formed : (Instr.sys 0x0E0#12).wellFormed = false := by decide
theorem test_sys_of_ret_word_is_ill_formed : (Instr.sys 0x0EE#12).wellFormed = false := by decide
theorem test_sys_is_well_formed : (Instr.sys 0x0E1#12).wellFormed = true := by decide

end WellFormedSmoke

section Decoding
/-! Every word is written out from R44's row of the instruction. -/

theorem test_decode_control :
    decodeWord 0x00E0#16 = .ok .cls ∧ decodeWord 0x00EE#16 = .ok .ret ∧ decodeWord 0x00E1#16 = .ok (.sys 0x0E1) ∧
    decodeWord 0x1234#16 = .ok (.jp 0x234) ∧ decodeWord 0x2ABC#16 = .ok (.call 0xABC) ∧
    decodeWord 0x3A05#16 = .ok (.seImm 10 0x05) ∧ decodeWord 0x4311#16 = .ok (.sneImm 3 0x11) ∧
    decodeWord 0x5120#16 = .ok (.seReg 1 2) ∧ decodeWord 0x9FE0#16 = .ok (.sneReg 15 14) ∧
    decodeWord 0xBF80#16 = .ok (.jpV0 0xF80) := ⟨rfl, rfl, rfl, rfl, rfl, rfl, rfl, rfl, rfl, rfl⟩

theorem test_decode_alu :
    decodeWord 0x6A7B#16 = .ok (.ldImm 10 0x7B) ∧ decodeWord 0x7002#16 = .ok (.addImm 0 0x02) ∧
    decodeWord 0x8120#16 = .ok (.ldReg 1 2) ∧ decodeWord 0x8121#16 = .ok (.orReg 1 2) ∧
    decodeWord 0x8122#16 = .ok (.andReg 1 2) ∧ decodeWord 0x8123#16 = .ok (.xorReg 1 2) ∧
    decodeWord 0x8124#16 = .ok (.addReg 1 2) ∧ decodeWord 0x8125#16 = .ok (.subReg 1 2) ∧
    decodeWord 0x8126#16 = .ok (.shrReg 1 2) ∧ decodeWord 0x8127#16 = .ok (.subnReg 1 2) ∧
    decodeWord 0x812E#16 = .ok (.shlReg 1 2) ∧ decodeWord 0xC30F#16 = .ok (.rnd 3 0x0F) :=
  ⟨rfl, rfl, rfl, rfl, rfl, rfl, rfl, rfl, rfl, rfl, rfl, rfl⟩

theorem test_decode_memory_display_keys :
    decodeWord 0xA300#16 = .ok (.ldI 0x300) ∧ decodeWord 0xF21E#16 = .ok (.addIVx 2) ∧
    decodeWord 0xF329#16 = .ok (.ldFVx 3) ∧ decodeWord 0xFA33#16 = .ok (.ldBVx 10) ∧
    decodeWord 0xF255#16 = .ok (.ldMemVx 2) ∧ decodeWord 0xF265#16 = .ok (.ldVxMem 2) ∧
    decodeWord 0xD125#16 = .ok (.drw 1 2 5) ∧ decodeWord 0xE59E#16 = .ok (.skp 5) ∧
    decodeWord 0xE5A1#16 = .ok (.sknp 5) ∧ decodeWord 0xF107#16 = .ok (.ldVxDt 1) ∧
    decodeWord 0xF30A#16 = .ok (.ldVxK 3) ∧ decodeWord 0xF015#16 = .ok (.ldDtVx 0) ∧
    decodeWord 0xF118#16 = .ok (.ldStVx 1) :=
  ⟨rfl, rfl, rfl, rfl, rfl, rfl, rfl, rfl, rfl, rfl, rfl, rfl, rfl⟩

theorem test_decode_rejects :
    decode [] = .error (.truncated 0) ∧ decode [0x12] = .error (.truncated 1) ∧
    decode [0x51, 0x21] = .error (.unknownOpcode 0x5121) ∧ decode [0x80, 0x08] = .error (.unknownOpcode 0x8008) ∧
    decode [0x91, 0x21] = .error (.unknownOpcode 0x9121) ∧ decode [0xE0, 0x00] = .error (.unknownOpcode 0xE000) ∧
    decode [0xFF, 0xFF] = .error (.unknownOpcode 0xFFFF) := ⟨rfl, rfl, rfl, rfl, rfl, rfl, rfl⟩

theorem test_decode_leaves_the_rest : decode [0x12, 0x34, 0x56] = .ok (.jp 0x234, [0x56]) := rfl

theorem test_decodeTableWord : decodeTableWord 16 0x1234 = some (.jp 0x234) ∧ decodeTableWord 16 0x5121 = none :=
  ⟨rfl, rfl⟩

end Decoding

section ControlFlow

theorem test_V1_ret : runs 0x00EE { c0 with pc := 0x212, sp := 1, stack := c0.stack.set 0 0x206 } 0x206
    (fun t => t.sp == 0 && t.stack[0] == 0x206) = true := by decide
theorem test_V2_ret_underflow :
    faults 0x00EE c0 (.outOfBounds .stackUnderflow) (some 0x00EE) 0 (fun t => t.sp == 0) = true := by decide
theorem test_V3_jp : runs 0x1228 c0 0x228 (fun _ => true) = true := by decide
theorem test_V5_call : runs 0x2210 { c0 with pc := 0x204 } 0x210
    (fun t => t.sp == 1 && t.stack[0] == 0x206) = true := by decide
theorem test_V6_call_overflow :
    faults 0x2300 { c0 with sp := 16 } (.outOfBounds .stackOverflow) (some 0x2300) 16 (fun t => t.sp == 16) = true := by
  decide
theorem test_V7_se : runs 0x3005 (regs { c0 with pc := 0x204 } [(0, 5)]) 0x208 (fun _ => true) = true := by decide
theorem test_V8_se : runs 0x3005 (regs { c0 with pc := 0x204 } [(0, 4)]) 0x206 (fun _ => true) = true := by decide
theorem test_V9_sne : runs 0x4311 (regs { c0 with pc := 0x300 } [(3, 0x10)]) 0x304 (fun _ => true) = true := by decide
theorem test_V10_sne : runs 0x4311 (regs c0 [(3, 0x11)]) 0x202 (fun _ => true) = true := by decide
theorem test_V11_se_reg : runs 0x5120 (regs c0 [(1, 0x33), (2, 0x33)]) 0x204 (fun _ => true) = true := by decide
theorem test_V12_se_reg : runs 0x5120 (regs c0 [(1, 0x33), (2, 0x34)]) 0x202 (fun _ => true) = true := by decide
theorem test_V14_sne_reg : runs 0x9120 (regs c0 [(1, 1), (2, 2)]) 0x204 (fun _ => true) = true := by decide
theorem test_V15_sne_reg : runs 0x9120 (regs c0 [(1, 7), (2, 7)]) 0x202 (fun _ => true) = true := by decide
theorem test_V18_jp_v0 : runs 0xBF80 (regs c0 [(0, 0x80)]) 0x1000 (fun _ => true) = true := by decide
theorem test_V20_sys : faults 0x0000 c0 .unimplementedOpcode (some 0x0000) 0 (fun _ => true) = true := by decide
theorem test_V21_sys_beside_cls :
    faults 0x00E1 c0 .unimplementedOpcode (some 0x00E1) 0x00E1 (fun _ => true) = true := by decide

end ControlFlow

section Alu

theorem test_V30_ld : runs 0x6A7B c0 0x202 (fun t => t.reg 10 == 0x7B) = true := by decide
theorem test_V31_add_wraps : runs 0x7002 (regs c0 [(0, 0xFF)]) 0x202
    (fun t => t.reg 0 == 1 && t.reg vF == 0) = true := by decide
theorem test_V33_ld_reg : runs 0x8030 (regs c0 [(3, 0x42)]) 0x202 (fun t => t.reg 0 == 0x42) = true := by decide
theorem test_V34_or_keeps_vF : runs 0x8011 (regs c0 [(0, 0xF0), (1, 0x0F), (15, 5)]) 0x202
    (fun t => t.reg 0 == 0xFF && t.reg vF == 5) = true := by decide
theorem test_V35_and : runs 0x8012 (regs c0 [(0, 0xF0), (1, 0x3C)]) 0x202 (fun t => t.reg 0 == 0x30) = true := by decide
theorem test_V36_xor : runs 0x8013 (regs c0 [(0, 0xFF), (1, 0x0F)]) 0x202 (fun t => t.reg 0 == 0xF0) = true := by decide
theorem test_E3_add_carry : runs 0x8014 (regs c0 [(0, 0xFF), (1, 1)]) 0x202
    (fun t => t.reg 0 == 0 && t.reg vF == 1) = true := by decide
theorem test_V40_add_into_vF : runs 0x8F14 (regs c0 [(15, 0x80), (1, 0x90)]) 0x202
    (fun t => t.reg vF == 0x90) = true := by decide
theorem test_E4_sub_borrow : runs 0x8015 (regs c0 [(0, 1), (1, 2)]) 0x202
    (fun t => t.reg 0 == 0xFF && t.reg vF == 0) = true := by decide
theorem test_V46_sub_vF : runs 0x80F5 c0 0x202 (fun t => t.reg 0 == 0xFF && t.reg vF == 0) = true := by decide
theorem test_V49_shr_quirk : runs 0x8016 (regs (core true false) [(1, 5)]) 0x202
    (fun t => t.reg vF == 0 && t.reg 0 == 0 && t.reg 1 == 5) = true := by decide
theorem test_V50_shr : runs 0x8016 (regs c0 [(1, 5)]) 0x202
    (fun t => t.reg vF == 1 && t.reg 1 == 2 && t.reg 0 == 2) = true := by decide
theorem test_V57_subn : runs 0x8017 (regs c0 [(0, 3), (1, 1)]) 0x202
    (fun t => t.reg 0 == 0xFE && t.reg vF == 0) = true := by decide
theorem test_V58_subn_into_vF : runs 0x8F07 c0 0x202 (fun t => t.reg vF == 0xFF) = true := by decide
theorem test_V65_shl_quirk_vF : runs 0x8F0E (regs (core true false) [(15, 0x80)]) 0x202
    (fun t => t.reg vF == 2) = true := by decide
theorem test_V63_shl : runs 0x801E (regs c0 [(1, 0x81)]) 0x202
    (fun t => t.reg 1 == 2 && t.reg 0 == 2 && t.reg vF == 1) = true := by decide
theorem test_V68_rnd : runs 0xC30F c0 0x202 (fun t => t.reg 3 == 7) = true := by decide
theorem test_V70_unknown : faults 0x8008 c0 .unknownOpcode (some 0x8008) 0x8008 (fun _ => true) = true := by decide

end Alu

section AddressAndMemory

theorem test_V80_ld_i : runs 0xA300 c0 0x202 (fun t => t.i == 0x300) = true := by decide
theorem test_V82_add_i_wraps : runs 0xF21E (regs { c0 with i := 0xFFFE } [(2, 5)]) 0x202
    (fun t => t.i == 3 && t.reg vF == 0) = true := by decide
theorem test_V81_add_i_past_memory : runs 0xF21E (regs { c0 with i := 0x0FFE } [(2, 5)]) 0x202
    (fun t => t.i == 0x1003) = true := by decide
theorem test_V86_ld_f_unmasked : runs 0xF029 (regs c0 [(0, 0xFF)]) 0x202 (fun t => t.i == 0x4FB) = true := by decide
theorem test_V88_bcd_top : runs 0xF033 (regs { c0 with i := 0xFFD } [(0, 0xFF)]) 0x202
    (fun t => t.readBytes 0xFFD 3 == [2, 5, 5] && t.i == 0xFFD) = true := by decide
theorem test_V89_bcd_past_top :
    faults 0xF033 (regs { c0 with i := 0xFFE } [(0, 0xFF)]) (.outOfBounds .memoryAccess) (some 0xF033) 0x1000
      (fun t => t.readBytes 0xFFE 2 == [0, 0]) = true := by decide
theorem test_V91_store : runs 0xF255 (regs { c0 with i := 0x400 } [(0, 0x11), (1, 0x22), (2, 0x33)]) 0x202
    (fun t => t.readBytes 0x3FF 5 == [0, 0x11, 0x22, 0x33, 0] && t.i == 0x403) = true := by decide
theorem test_V95_store_past_top :
    faults 0xFF55 { c0 with i := 0xFF1 } (.outOfBounds .memoryAccess) (some 0xFF55) 0x1000 (fun _ => true) = true := by
  decide
theorem test_V97_load_quirk :
    runs 0xF265 (State.writeBytes { core false true with i := 0x300 } 0x300 [1, 2, 3, 4]) 0x202
      (fun t => t.reg 0 == 1 && t.reg 1 == 2 && t.reg 2 == 3 && t.reg 3 == 0 && t.i == 0x300) = true := by decide
theorem test_V99_load_past_top :
    faults 0xF065 { c0 with i := 0x1000 } (.outOfBounds .memoryAccess) (some 0xF065) 0x1000 (fun _ => true) = true := by
  decide
/-- R36, D13: a store over the font table succeeds, and memory keeps its canonical form when the font's byte is put back. -/
theorem test_font_bytes_can_be_overwritten :
    (c0.writeBytes 0 [0]).readByte 0 = 0 ∧ ((c0.writeBytes 0 [0]).writeBytes 0 [0xF0]).mem = [] := by decide

end AddressAndMemory

section Display

theorem test_V110_cls : runs 0x00E0 { c0 with fb := Framebuffer.toggle c0.fb 124 } 0x202
    (fun t => t.draw && litBelow 200 t == []) = true := by decide
theorem test_V112_drw :
    runs 0xD012 (regs (State.writeBytes { c0 with i := 0x20C } 0x20C [0xFF, 0x81]) [(0, 0x3C), (1, 1)]) 0x202
      (fun t => t.draw && t.reg vF == 0 &&
        litBelow 260 t == [124, 125, 126, 127, 128, 129, 130, 131, 188, 195]) = true := by decide
theorem test_V114_drw_wraps :
    runs 0xD011 (regs (State.writeBytes { c0 with i := 0x300 } 0x300 [0xC0]) [(0, 0x3F), (1, 0x1F)]) 0x202
      (fun t => t.cell 2047 && t.cell 0 && t.reg vF == 0 && !t.cell 1 && !t.cell 1984) = true := by decide
theorem test_V116_drw_past_top :
    faults 0xD012 { c0 with i := 0xFFF } (.outOfBounds .memoryAccess) (some 0xD012) 0x1000 (fun _ => true) = true := by
  decide

end Display

section KeypadAndTimers

theorem test_V130_skp : runs 0xE59E (regs (c0.keyDown 7) [(5, 7)]) 0x204 (fun _ => true) = true := by decide
theorem test_V132_skp_index :
    faults 0xE09E (regs c0 [(0, 0x10)]) (.outOfBounds .keyIndex) (some 0xE09E) 0x10 (fun _ => true) = true := by decide
theorem test_V133_sknp : runs 0xE5A1 (regs c0 [(5, 7)]) 0x204 (fun _ => true) = true := by decide
theorem test_V134_sknp : runs 0xE0A1 (regs (c0.keyDown 3) [(0, 3)]) 0x202 (fun _ => true) = true := by decide
theorem test_V137_ld_dt : runs 0xF107 { c0 with dt := 0x3C } 0x202 (fun t => t.reg 1 == 0x3C) = true := by decide
theorem test_V138_key_wait : runs 0xF30A { c0 with draw := true } 0x200
    (fun t => t.reg 3 == 0 && !t.draw) = true := by decide
theorem test_V139_key_lowest : runs 0xF30A ((c0.keyDown 9).keyDown 3) 0x202 (fun t => t.reg 3 == 3) = true := by decide
theorem test_V140_set_dt : runs 0xF015 (regs c0 [(0, 0x3C)]) 0x202 (fun t => t.dt == 0x3C && t.st == 0) = true := by decide
theorem test_V141_set_st : runs 0xF118 (regs c0 [(1, 2)]) 0x202
    (fun t => t.st == 2 && t.soundActive && t.dt == 0) = true := by decide

end KeypadAndTimers

section HostInterface

theorem test_V142_tick_saturates : (State.tickTimers { c0 with dt := 1 }).dt = 0 ∧
    (State.tickTimers { c0 with dt := 1 }).st = 0 := by decide
theorem test_V144_keys : (c0.keyDown 5).key[5] = true ∧ ((c0.keyDown 5).keyUp 5).key[5] = false := by decide
theorem test_V152_load_too_long : (transact (.loadProgram (List.replicate 3585 1)) c0).1 =
    .loadFault { kind := .outOfBounds .programLoad, word := none, pc := 0x200, info := 3585 } := by decide +kernel
theorem test_V153_load_empty : transact (.loadProgram []) c0 = (.loadOk, c0) := rfl
theorem test_V22_fetch_past_top :
    answers (step { c0 with pc := 0xFFF }) (fun t => t.fault ==
      some { kind := .outOfBounds .fetch, word := none, pc := 0xFFF, info := 0xFFF }) = true := by decide
theorem test_V24_odd_pc : runs 0x1234 { c0 with pc := 0x201 } 0x234 (fun _ => true) = true := by decide
/-- R96, R70: the byte the host presents is the one masked, not the one the state held (0xA7). -/
theorem test_step_takes_the_presented_byte : ((transact (.step 0x5C) (c0.placeWord 0xC30F)).2.reg 3 = 0x0C) ∧
    (transact (.step 0x5C) (c0.placeWord 0xC30F)).1 = .stepped false none := by decide
/-- R105: nothing of a halted core with a register and a timer set survives `new`. -/
theorem test_new_discards_the_old_core :
    let old := State.recordFault { c0.setReg 4 9 with dt := 7 } (programLoadFault c0 3585)
    let t := (transact (.new true false fontG1) old).2
    t.reg 4 = 0 ∧ t.dt = 0 ∧ t.fault = none ∧ t.shiftQuirk = true := by decide
theorem test_codes : FaultKind.unknownOpcode.code = 1 ∧ (FaultKind.outOfBounds .keyIndex).code = 8 := by decide

/-- A word the host places at reset is the instruction the first step runs (R106). -/
theorem test_withFetchWord_at_reset :
    answers (step (State.reset.withFetchWord 16 0x6A7B)) (fun t => t.reg 10 == 0x7B && t.pc == 0x202) = true := by decide

end HostInterface

section Witnesses
/-! For each statement with hypotheses, a state and operands that meet them, at the boundary values of its clauses. -/

/-- A record for the halted core of the witnesses. -/
def rec0 : FaultRecord := { kind := .unknownOpcode, word := some 0x5121, pc := 0x200, info := 0x5121 }

theorem witness_invariant : CoreInv (c0.placeWord 0x6A7B) ∧ ∃ t, step (c0.placeWord 0x6A7B) = .next t :=
  ⟨⟨by decide, by decide, by decide⟩, _, rfl⟩

theorem witness_StepRunsDecodedInstruction :
    (c0.placeWord 0x1234).fault = none ∧ (c0.placeWord 0x1234).pc.toNat < 0xFFF ∧
    decode [(c0.placeWord 0x1234).readByte 0x200, (c0.placeWord 0x1234).readByte 0x201] = .ok (.jp 0x234, []) :=
  ⟨rfl, by decide, rfl⟩

theorem witness_DecodeOfEncodedInstruction : (Instr.sys 0x0E1#12).wellFormed = true := by decide

theorem witness_EncodeOfDecodedWord : decodeWord 0xD125#16 = .ok (.drw 1 2 5) := rfl

theorem witness_UnknownWords : UnknownWord 0x5121#16 ∧ UnknownWord 0x800F#16 ∧ UnknownWord 0x9001#16 ∧
    UnknownWord 0xE000#16 ∧ UnknownWord 0xFFFF#16 ∧ ¬ UnknownWord 0x5120#16 :=
  ⟨by decide, by decide, by decide, by decide, by decide, by decide⟩

theorem witness_SysWords : (0x0E0#12 ≠ 0x0EE#12) ∧ (0x000#12 ≠ 0x0E0#12 ∧ 0x000#12 ≠ 0x0EE#12) ∧
    c0.fault = none ∧ c0.fetchWord = some (0x0#4 ++ 0x000#12) := ⟨by decide, by decide, rfl, rfl⟩

theorem witness_UnknownWordFaults : (c0.placeWord 0x5121).fault = none ∧
    (c0.placeWord 0x5121).fetchWord = some 0x5121 ∧ UnknownWord 0x5121#16 := by
  refine ⟨rfl, by decide, by decide⟩

theorem witness_Fetch : (State.pc { c0 with pc := 0xFFE }).toNat < 0xFFF ∧
    0xFFF ≤ (State.pc { c0 with pc := 0xFFF }).toNat ∧ (State.fault { c0 with pc := 0xFFF }) = none := by decide

theorem witness_HaltedCore : (State.fault { c0 with fault := some rec0 }) = some rec0 := rfl

theorem witness_FaultsArePrecise : (∃ t, c0.fault = none ∧ step c0 = .next t ∧ t.fault ≠ none) ∧
    (∃ r t, transact (.loadProgram (List.replicate 3585 1)) c0 = (.loadFault r, t)) := by
  refine ⟨⟨_, rfl, rfl, by decide⟩, programLoadFault c0 3585, c0.recordFault (programLoadFault c0 3585), ?_⟩
  have h : ¬ 0x200 + (List.replicate 3585 (1 : Byte)).length ≤ 0x1000 := by rw [List.length_replicate]; decide
  have e : loadProgram (List.replicate 3585 1) c0 = .next (c0.recordFault (programLoadFault c0 3585)) := by
    unfold loadProgram; rw [if_neg (by decide), if_neg h, List.length_replicate]
  simp only [transact, e, stateAfter]; rfl

theorem witness_InstructionFaults :
    faultOf c0 .ret = some (.outOfBounds .stackUnderflow, 0) ∧
    faultOf { c0 with sp := 16 } (.call 0x300) = some (.outOfBounds .stackOverflow, 16) ∧
    faultOf { c0 with i := 0xFFE } (.ldBVx 0) = some (.outOfBounds .memoryAccess, 0x1000) ∧
    faultOf { c0 with i := 0xFF1 } (.ldVxMem 15) = some (.outOfBounds .memoryAccess, 0x1000) ∧
    faultOf { c0 with i := 0xFFF } (.drw 0 1 2) = some (.outOfBounds .memoryAccess, 0x1000) ∧
    faultOf (regs c0 [(0, 16)]) (.skp 0) = some (.outOfBounds .keyIndex, 16) := by decide

theorem witness_InstructionWrites :
    faultOf { c0 with i := 0xFF0 } (.ldMemVx 15) = none ∧ faultOf { c0 with i := 0xFFD } (.ldBVx 0) = none ∧
    faultOf { c0 with i := 0xFFFF } (.drw 0 1 0) = none ∧ faultOf { c0 with i := 0xFFF } (.drw 0 1 1) = none ∧
    faultOf { c0 with sp := 15 } (.call 0x300) = none ∧ faultOf { c0 with sp := 1 } .ret = none ∧
    faultOf (regs c0 [(0, 15)]) (.skp 0) = none ∧ (c0.placeWord 0x6A7B).fault = none ∧
    (c0.placeWord 0x6A7B).fetchWord = some 0x6A7B ∧ decodeWord 0x6A7B#16 = .ok (.ldImm 10 0x7B) := by
  refine ⟨?_, ?_, ?_, ?_, ?_, ?_, ?_, ?_, ?_, rfl⟩ <;> decide

theorem witness_CallAndRet : (State.sp { c0 with sp := 15 }).val < 16 ∧ (State.sp { c0 with sp := 16 }).val = 16 ∧
    0 < (State.sp { c0 with sp := 1 }).val ∧ c0.sp.val = 0 := by decide

theorem witness_CallThenRet : c0.sp.val < 16 ∧ ∃ t, exec (.call 0x300) c0 = .next t := ⟨by decide, _, rfl⟩

theorem witness_AddSubShift : (0 : RegIx) ≠ vF ∧ (14 : RegIx) ≠ vF ∧ (core true false).shiftQuirk = true ∧
    (core false false).shiftQuirk = false ∧ (regs c0 [(0, 1)]).reg 0 ≠ 0 ∧ c0.reg 0 = 0 := by decide

theorem witness_RandomByte : (∃ t t', exec (.rnd 3 0x0F) { c0 with random := 0xA7 } = .next t ∧
    exec (.rnd 3 0x0F) { c0 with random := 0xFF } = .next t') ∧ (c0.placeWord 0xC30F).fault = none ∧
    (c0.placeWord 0xC30F).fetchWord = some (0xC#4 ++ regBits 3 ++ 0x0F#8) := ⟨⟨_, _, rfl, rfl⟩, rfl, by decide⟩

theorem witness_Digits : (State.i { c0 with i := 0xFFD }).toNat + 2 ≤ 0xFFF ∧
    (State.i { c0 with i := 0xFFE }).toNat + 2 > 0xFFF := by decide

theorem witness_BlockAccess : (State.i { c0 with i := 0xFF0 }).toNat + (15 : RegIx).val ≤ 0xFFF ∧
    (State.i { c0 with i := 0xFF1 }).toNat + (15 : RegIx).val > 0xFFF := by decide

theorem witness_FetchSeesStores : 0 + 1 ≤ (1 : RegIx).val ∧ (State.i { c0 with i := 0x208 }).toNat + (1 : RegIx).val ≤ 0xFFF ∧
    (∃ t, exec (.ldMemVx 1) { c0 with i := 0x208 } = .next t) ∧ (0x208#16).toNat = (0x208#16).toNat + 0 :=
  ⟨by decide, by decide, ⟨_, rfl⟩, rfl⟩

theorem witness_Draw : (0#4).toNat = 0 ∧ (State.i { c0 with i := 0xFFF }).toNat + (1#4).toNat - 1 ≤ 0xFFF ∧
    ((2#4).toNat ≠ 0 ∧ (State.i { c0 with i := 0xFFF }).toNat + (2#4).toNat - 1 > 0xFFF) := by decide

/-- The first glyph of the font drawn on a blank screen touches cell 0, which was 0. -/
theorem witness_DrawTouches : SpriteTouches c0 0 1 1 0 ∧ c0.cell 0 = false :=
  ⟨⟨0, by decide, 0, by decide, by decide, by decide⟩, by decide⟩

/-- A framebuffer whose touched cells are all 1: the collision clause of the draw, and the hypotheses of the statement that
the second draw always collides, which the model refutes. -/
theorem witness_SecondDraw : let s : State := { c0 with fb := Vector.replicate 32 0xF }
    SpriteTouches s 0 1 1 0 ∧ s.cell 0 = true ∧ (∃ t u, exec (.drw 0 1 1) s = .next t ∧ t.fault = none ∧
      exec (.drw 0 1 1) t = .next u) :=
  ⟨⟨0, by decide, 0, by decide, by decide, by decide⟩, by decide, _, _, rfl, rfl, rfl⟩

theorem witness_KeySkips : (regs c0 [(0, 15)]).reg 0 = 15 ∧ ((regs c0 [(0, 15)]).reg 0).toNat = (15 : Fin 16).val ∧
    15 < ((regs c0 [(0, 16)]).reg 0).toNat := by decide

theorem witness_KeyWait : ((c0.keyDown 15).key[15] = true ∧ ∀ j : Fin 16, j < 15 → (c0.keyDown 15).key[j.val] = false) ∧
    ((c0.keyDown 0).key[0] = true) ∧ (∀ k : Fin 16, c0.key[k.val] = false) := by decide

theorem witness_LoadProgram : c0.fault = none ∧ 0x200 + (List.replicate 3584 (1 : Byte)).length ≤ 0x1000 ∧
    0x1000 < 0x200 + (List.replicate 3585 (1 : Byte)).length ∧ (State.fault { c0 with fault := some rec0 }) ≠ none := by
  refine ⟨rfl, by rw [List.length_replicate], by rw [List.length_replicate]; decide, by decide⟩

theorem witness_QuirksAreFixed : ∀ sq lq font, Transaction.new sq lq font ∉ [Transaction.tickTimers, .step 0] := by
  simp

theorem witness_OnlyTheHostWritesKeys : (∃ t, step c0 = .next t) ∧ (∀ k, Transaction.tickTimers ≠ .keyDown k) ∧
    (∀ k, Transaction.tickTimers ≠ .keyUp k) ∧ (∀ sq lq font, Transaction.tickTimers ≠ .new sq lq font) :=
  ⟨⟨_, rfl⟩, by simp, by simp, by simp⟩

theorem witness_DrawSignal : ((c0.placeWord 0x00E0).fault = none ∧ ∃ t, step (c0.placeWord 0x00E0) = .next t) ∧
    (∀ r, Transaction.tickTimers ≠ .step r) ∧ (∀ sq lq font, Transaction.tickTimers ≠ .new sq lq font) :=
  ⟨⟨rfl, _, rfl⟩, by simp, by simp⟩

theorem witness_Idle : IdleAt 0x200 (c0.placeWord 0x1200) := ⟨rfl, by decide, by decide⟩

theorem witness_Waiting : WaitingAt 0x200 (c0.placeWord 0xF30A) ∧ (c0.placeWord 0xF30A).fetchWord = some 0xF30A ∧
    regOf (fieldX 0xF30A) = 3 := ⟨⟨rfl, by decide, ⟨3, by decide⟩, by decide⟩, by decide, rfl⟩

theorem witness_RandomInput : (∀ w x nn, (c0.placeWord 0x1200).fetchWord = some w → decodeWord w ≠ .ok (.rnd x nn)) ∧
    (c0.placeWord 0x1200).fault = none ∧ ∃ t, step (c0.placeWord 0x1200) = .next t := by
  refine ⟨fun w x nn h => ?_, rfl, _, rfl⟩
  have e : (c0.placeWord 0x1200).fetchWord = some 0x1200 := by decide
  rw [e] at h; cases h
  intro c; cases c

theorem witness_SafeStep : SafeStep (c0.placeWord 0x6A7B) := ⟨_, rfl, rfl⟩

end Witnesses

end Sys2Proof.Tests
end

/-! SUPPORT. What the instructions that search or use the stack answer, one equation per outcome (R49, R51, R84). -/

namespace Sys2Proof.Machine

section ExecEquations
variable {s t : State} {a : Word} {nnn : Addr} {x : RegIx} {k : Nat}

theorem exec_ret_of_pop (h : s.pop = some (t, a)) : exec .ret s = .next (t.jump a) := by
  simp only [exec, execRet, h, done_eq]

theorem exec_ret_of_empty (h : s.pop = none) :
    exec .ret s = raise (.outOfBounds .stackUnderflow) (encode .ret) s.sp.val s := by
  simp only [exec, execRet, h]

theorem exec_call_of_push (h : s.push s.pc = some t) : exec (.call nnn) s = .next (t.jump (zext16 nnn)) := by
  simp only [exec, execCall, h, done_eq]

theorem exec_call_of_full (h : s.push s.pc = none) :
    exec (.call nnn) s = raise (.outOfBounds .stackOverflow) (encode (.call nnn)) s.sp.val s := by
  simp only [exec, execCall, h]

theorem exec_ldVxK_of_pressed (h : s.firstPressed = some k) :
    exec (.ldVxK x) s = .next (s.setReg x (BitVec.ofNat 8 k)) := by
  simp only [exec, execLdVxK, h, done_eq]

theorem exec_ldVxK_of_waiting (h : s.firstPressed = none) : exec (.ldVxK x) s = .next (s.jump (s.pc - 2)) := by
  simp only [exec, execLdVxK, h, done_eq]

end ExecEquations

end Sys2Proof.Machine

/-! SUPPORT. The frame rules: one rule per state operation for `OnlyWrites`, which later proofs compose
(00_scope.md R6). A rule asks that the pieces its operation writes are listed. -/

namespace Sys2Proof.Machine

section OnlyWritesRules
variable {ps qs : List Piece} {s t u : State}

/-- A state differs from itself in no piece. -/
theorem OnlyWrites.refl : OnlyWrites ps s s := by constructor <;> simp

/-- A longer list of pieces allows more. -/
theorem OnlyWrites.mono (h : OnlyWrites ps s t) (hsub : ps ⊆ qs) : OnlyWrites qs s t where
  reg r hr := h.reg r fun hp => hr (hsub hp)
  i hn := h.i fun hp => hn (hsub hp)
  pc hn := h.pc fun hp => hn (hsub hp)
  stack hn := h.stack fun hp => hn (hsub hp)
  sp hn := h.sp fun hp => hn (hsub hp)
  dt hn := h.dt fun hp => hn (hsub hp)
  st hn := h.st fun hp => hn (hsub hp)
  fb hn := h.fb fun hp => hn (hsub hp)
  draw hn := h.draw fun hp => hn (hsub hp)
  mem hn := h.mem fun hp => hn (hsub hp)
  freeDraw hn := h.freeDraw fun hp => hn (hsub hp)
  key := h.key
  quirks := h.quirks
  font := h.font
  fault := h.fault

/-- Two changes one after the other write no more pieces than both may. -/
theorem OnlyWrites.trans (h : OnlyWrites ps s t) (h' : OnlyWrites ps t u) : OnlyWrites ps s u where
  reg r hr := (h'.reg r hr).trans (h.reg r hr)
  i hn := (h'.i hn).trans (h.i hn)
  pc hn := (h'.pc hn).trans (h.pc hn)
  stack hn := (h'.stack hn).trans (h.stack hn)
  sp hn := (h'.sp hn).trans (h.sp hn)
  dt hn := (h'.dt hn).trans (h.dt hn)
  st hn := (h'.st hn).trans (h.st hn)
  fb hn := (h'.fb hn).trans (h.fb hn)
  draw hn := (h'.draw hn).trans (h.draw hn)
  mem hn a := (h'.mem hn a).trans (h.mem hn a)
  freeDraw hn := ⟨(h'.freeDraw hn).1.trans (h.freeDraw hn).1, (h'.freeDraw hn).2.trans (h.freeDraw hn).2⟩
  key := h'.key.trans h.key
  quirks := ⟨h'.quirks.1.trans h.quirks.1, h'.quirks.2.trans h.quirks.2⟩
  font := h'.font.trans h.font
  fault := h'.fault.trans h.fault

/-- A register file that agrees on every register not listed. -/
theorem OnlyWrites.setRegisterFile (h : OnlyWrites ps s t) (v : Vector Byte 16)
    (hv : ∀ r : RegIx, Piece.reg r ∉ ps → v[r.val] = t.reg r) : OnlyWrites ps s { t with v := v } :=
  { h with reg := fun r hr => (hv r hr).trans (h.reg r hr) }

theorem OnlyWrites.setReg (h : OnlyWrites ps s t) (x : RegIx) (b : Byte)
    (hx : Piece.reg x ∈ ps := by simp [writes]) : OnlyWrites ps s (t.setReg x b) :=
  h.setRegisterFile _ fun r hr => by
    have hne : r ≠ x := fun e => hr (e ▸ hx)
    rw [← setReg_v, ← reg_eq, reg_setReg, if_neg hne]

theorem OnlyWrites.setFlagIf (h : OnlyWrites ps s t) (c : Bool) (b : Byte)
    (hf : Piece.reg vF ∈ ps := by simp [writes]) : OnlyWrites ps s (t.setFlagIf c b) :=
  h.setReg vF _ hf

theorem OnlyWrites.subtractInto (h : OnlyWrites ps s t) (x p q : RegIx)
    (hx : Piece.reg x ∈ ps := by simp [writes]) (hf : Piece.reg vF ∈ ps := by simp [writes]) :
    OnlyWrites ps s (t.subtractInto x p q) :=
  ((h.setReg vF _ hf).setFlagIf _ _ hf).setReg x _ hx

theorem OnlyWrites.shiftInto (h : OnlyWrites ps s t) (x source : RegIx) (out shifted : Byte → Byte)
    (hx : Piece.reg x ∈ ps) (hsrc : Piece.reg source ∈ ps) (hf : Piece.reg vF ∈ ps) :
    OnlyWrites ps s (t.shiftInto x source out shifted) :=
  ((h.setReg vF _ hf).setReg source _ hsrc).setReg x _ hx

theorem OnlyWrites.loadRegsUpTo (h : OnlyWrites ps s t) (x : RegIx) (hx : ∀ r ≤ x, Piece.reg r ∈ ps) :
    OnlyWrites ps s (t.loadRegsUpTo x) :=
  h.setRegisterFile _ fun r hr => by
    have hgt : ¬ r ≤ x := fun hle => hr (hx r hle)
    rw [← loadRegsUpTo_v, ← reg_eq, reg_loadRegsUpTo, if_neg hgt]

theorem OnlyWrites.setI (h : OnlyWrites ps s t) (a : Word) (hi : Piece.i ∈ ps := by simp [writes]) :
    OnlyWrites ps s (t.setI a) :=
  { h with i := fun hn => absurd hi hn }

/-- I advances only where `LOADSTORE_QUIRK` is false (R20). -/
theorem OnlyWrites.advanceI (h : OnlyWrites ps s t) (x : RegIx)
    (hi : t.loadStoreQuirk = false → Piece.i ∈ ps) : OnlyWrites ps s (t.advanceI x) :=
  { h with
    i := fun hn => by
      have hq : t.loadStoreQuirk = true := Bool.eq_true_of_not_eq_false fun hq => hn (hi hq)
      rw [advanceI_i, if_pos hq, h.i hn] }

theorem OnlyWrites.jump (h : OnlyWrites ps s t) (a : Word) (hpc : Piece.pc ∈ ps := by simp [writes]) :
    OnlyWrites ps s (t.jump a) :=
  { h with pc := fun hn => absurd hpc hn }

theorem OnlyWrites.skipIf (h : OnlyWrites ps s t) (c : Bool) (hpc : Piece.pc ∈ ps := by simp [writes]) :
    OnlyWrites ps s (t.skipIf c) :=
  { h with pc := fun hn => absurd hpc hn }

theorem OnlyWrites.beginExecute (h : OnlyWrites ps s t) (hpc : Piece.pc ∈ ps := by simp [writes])
    (hd : Piece.draw ∈ ps := by simp [writes]) : OnlyWrites ps s t.beginExecute :=
  { h with pc := fun hn => absurd hpc hn, draw := fun hn => absurd hd hn }

/-- The update of a push (R51). -/
theorem OnlyWrites.setStack (h : OnlyWrites ps s t) (slots : Vector Word 16) (p : Fin 17)
    (hst : Piece.stack ∈ ps := by simp [writes]) (hsp : Piece.sp ∈ ps := by simp [writes]) :
    OnlyWrites ps s { t with stack := slots, sp := p } :=
  { h with stack := fun hn => absurd hst hn, sp := fun hn => absurd hsp hn }

/-- The update of a pop, which leaves the slots (R49). -/
theorem OnlyWrites.setSp (h : OnlyWrites ps s t) (p : Fin 17) (hsp : Piece.sp ∈ ps := by simp [writes]) :
    OnlyWrites ps s { t with sp := p } :=
  { h with sp := fun hn => absurd hsp hn }

theorem OnlyWrites.setDt (h : OnlyWrites ps s t) (b : Byte) (hdt : Piece.dt ∈ ps := by simp [writes]) :
    OnlyWrites ps s { t with dt := b } :=
  { h with dt := fun hn => absurd hdt hn }

theorem OnlyWrites.setSt (h : OnlyWrites ps s t) (b : Byte) (hst : Piece.st ∈ ps := by simp [writes]) :
    OnlyWrites ps s { t with st := b } :=
  { h with st := fun hn => absurd hst hn }

/-- The update of a display instruction: the framebuffer and the draw signal (R79, R80). -/
theorem OnlyWrites.setScreen (h : OnlyWrites ps s t) (f : Framebuffer) (d : Bool)
    (hf : Piece.fb ∈ ps := by simp [writes]) (hd : Piece.draw ∈ ps := by simp [writes]) :
    OnlyWrites ps s { t with fb := f, draw := d } :=
  { h with fb := fun hn => absurd hf hn, draw := fun hn => absurd hd hn }

theorem OnlyWrites.nextDraw (h : OnlyWrites ps s t) (hd : Piece.freeDraw ∈ ps := by simp [writes]) :
    OnlyWrites ps s t.nextDraw :=
  { h with freeDraw := fun hn => absurd hd hn }

theorem OnlyWrites.writeBytes (h : OnlyWrites ps s t) (a : Nat) (bs : List Byte) (hm : Piece.mem ∈ ps) :
    OnlyWrites ps s (t.writeBytes a bs) :=
  { h with mem := fun hn => absurd hm hn }

end OnlyWritesRules

section WritesMembership
variable {sq lq : Bool} {x r : RegIx}

/-- A shift may write its destination, the register it shifts and the flag (R19, R67, R69). -/
theorem shift_regs_mem_writes (s : State) (lq : Bool) (x y : RegIx) :
    Piece.reg x ∈ writes s.shiftQuirk lq (.shrReg x y) ∧
    Piece.reg (s.shiftSource x y) ∈ writes s.shiftQuirk lq (.shrReg x y) ∧
    Piece.reg vF ∈ writes s.shiftQuirk lq (.shrReg x y) := by
  unfold State.shiftSource
  cases s.shiftQuirk <;> simp [writes]

/-- Fx55 may write memory under either quirk setting (R75). -/
theorem mem_mem_writes_ldMemVx : Piece.mem ∈ writes sq lq (.ldMemVx x) := by
  cases lq <;> simp [writes]

/-- Fx65 may write every register up to Vx (R76). -/
theorem reg_mem_writes_ldVxMem (hr : r ≤ x) : Piece.reg r ∈ writes sq lq (.ldVxMem x) := by
  cases lq <;> simp [writes, hr]

/-- Fx55 and Fx65 may write I where `LOADSTORE_QUIRK` is false (R20). -/
theorem i_mem_writes_of_no_quirk (hq : lq = false) :
    Piece.i ∈ writes sq lq (.ldMemVx x) ∧ Piece.i ∈ writes sq lq (.ldVxMem x) := by
  subst hq; simp [writes]

end WritesMembership

section InstructionFrame
variable {s : State} {x y : RegIx} {n : Nibble} {nnn : Addr}

/-! What the absence of a fault in the table `faultOf` says, in the terms the machine tests. -/

/-- A row of `faultOf` that gives none does not meet its condition. -/
theorem not_of_tabled_none {c : Prop} [Decidable c] {e : FaultKind × Nat}
    (h : (if c then some e else none) = none) : ¬ c := by simpa using h

theorem sp_pos_of_faultOf_ret (h : faultOf s .ret = none) : 0 < s.sp.val :=
  Nat.pos_of_ne_zero (not_of_tabled_none h)

theorem sp_lt_of_faultOf_call (h : faultOf s (.call nnn) = none) : s.sp.val < 16 := by
  have hsp : s.sp.val ≠ 16 := not_of_tabled_none h
  omega

theorem key_le_of_faultOf_skp (h : faultOf s (.skp x) = none) : ¬ (s.reg x).toNat > 15 :=
  not_of_tabled_none h

theorem blockInRange_of_faultOf_ldBVx (h : faultOf s (.ldBVx x) = none) :
    blockInRange (s.blockAddr 0) 3 = true := by
  have hlast : ¬ s.i.toNat + 2 > 0xFFF := not_of_tabled_none h
  rw [blockInRange_iff, blockAddr_eq]; omega

/-- The block of Fx55, and of Fx65, whose row of the table is the same. -/
theorem blockInRange_of_faultOf_ldMemVx (h : faultOf s (.ldMemVx x) = none) :
    blockInRange (s.blockAddr 0) (x.val + 1) = true := by
  have hlast : ¬ s.i.toNat + x.val > 0xFFF := not_of_tabled_none h
  rw [blockInRange_iff, blockAddr_eq]; omega

theorem blockInRange_of_faultOf_drw (h : faultOf s (.drw x y n) = none) :
    blockInRange (s.blockAddr 0) n.toNat = true := by
  have hlast : ¬ (0 < n.toNat ∧ s.i.toNat + n.toNat - 1 > 0xFFF) := not_of_tabled_none h
  rw [blockInRange_iff, blockAddr_eq]; omega

/-- An instruction that the table says raises no fault completes, and writes only the pieces its rule names (R6). -/
theorem exec_onlyWrites (i : Instr) (s : State) (h : faultOf s i = none) :
    ∃ t, exec i s = .next t ∧ OnlyWrites (writes s.shiftQuirk s.loadStoreQuirk i) s t := by
  match i, h with
  | .cls, _ => exact ⟨_, rfl, OnlyWrites.refl.setScreen _ _⟩
  | .ret, h =>
    have hpop := (pop_eq_some_iff s _ _).2 ⟨sp_pos_of_faultOf_ret h, rfl, rfl⟩
    exact ⟨_, exec_ret_of_pop hpop, (OnlyWrites.refl.setSp _).jump _⟩
  | .sys _, h => simp [faultOf] at h
  | .call _, h =>
    have hpush := (push_eq_some_iff s s.pc _).2 ⟨sp_lt_of_faultOf_call h, rfl⟩
    exact ⟨_, exec_call_of_push hpush, (OnlyWrites.refl.setStack _ _).jump _⟩
  | .jp _, _ | .jpV0 _, _ => exact ⟨_, rfl, OnlyWrites.refl.jump _⟩
  | .seImm _ _, _ | .sneImm _ _, _ | .seReg _ _, _ | .sneReg _ _, _ => exact ⟨_, rfl, OnlyWrites.refl.skipIf _⟩
  | .skp _, h | .sknp _, h => exact ⟨_, if_neg (key_le_of_faultOf_skp h), OnlyWrites.refl.skipIf _⟩
  | .ldImm x _, _ | .addImm x _, _ | .ldReg x _, _ | .orReg x _, _ | .andReg x _, _ | .xorReg x _, _
  | .ldVxDt x, _ => exact ⟨_, rfl, OnlyWrites.refl.setReg x _⟩
  | .addReg x _, _ => exact ⟨_, rfl, ((OnlyWrites.refl.setReg vF _).setFlagIf _ _).setReg x _⟩
  | .subReg x _, _ | .subnReg x _, _ => exact ⟨_, rfl, OnlyWrites.refl.subtractInto x _ _⟩
  | .shrReg x y, _ | .shlReg x y, _ =>
    obtain ⟨hx, hsrc, hf⟩ := shift_regs_mem_writes s s.loadStoreQuirk x y
    exact ⟨_, rfl, OnlyWrites.refl.shiftInto x _ _ _ hx hsrc hf⟩
  | .rnd x _, _ => exact ⟨_, rfl, (OnlyWrites.refl.setReg x _).nextDraw⟩
  | .drw _ _ _, h =>
    exact ⟨_, if_pos (blockInRange_of_faultOf_drw h), (OnlyWrites.refl.setReg vF _).setScreen _ _⟩
  | .ldVxK x, _ =>
    cases hk : s.firstPressed with
    | some k => exact ⟨_, exec_ldVxK_of_pressed hk, OnlyWrites.refl.setReg x _⟩
    | none => exact ⟨_, exec_ldVxK_of_waiting hk, OnlyWrites.refl.jump _⟩
  | .ldDtVx _, _ => exact ⟨_, rfl, OnlyWrites.refl.setDt _⟩
  | .ldStVx _, _ => exact ⟨_, rfl, OnlyWrites.refl.setSt _⟩
  | .ldI _, _ | .addIVx _, _ | .ldFVx _, _ => exact ⟨_, rfl, OnlyWrites.refl.setI _⟩
  | .ldBVx _, h =>
    exact ⟨_, if_pos (blockInRange_of_faultOf_ldBVx h), OnlyWrites.refl.writeBytes _ _ (by simp [writes])⟩
  | .ldMemVx x, h =>
    exact ⟨_, if_pos (blockInRange_of_faultOf_ldMemVx h),
      (OnlyWrites.refl.writeBytes _ _ mem_mem_writes_ldMemVx).advanceI x fun hq => (i_mem_writes_of_no_quirk hq).1⟩
  | .ldVxMem x, h =>
    exact ⟨_, if_pos (blockInRange_of_faultOf_ldMemVx h),
      (OnlyWrites.refl.loadRegsUpTo x fun _ => reg_mem_writes_ldVxMem).advanceI x
        fun hq => (i_mem_writes_of_no_quirk hq).2⟩

/-- The step of a running core whose fetched word decodes is the execution of what it decodes to (R40). -/
theorem step_of_decoded {w : Word} {i : Instr} (hrun : s.fault = none) (hw : s.fetchWord = some w)
    (hd : decodeWord w = .ok i) : step s = exec i s.beginExecute := by
  simp only [step_of_running s hrun, cycle, hw, hd]

/-- The table of faults does not look at what the start of the execute phase writes. -/
theorem faultOf_beginExecute (i : Instr) : faultOf s.beginExecute i = faultOf s i := rfl

end InstructionFrame

/-- Settles O18: the frame rules composed along each meaning, and for the step the start of its execute phase before
them. -/
theorem instructionWritesOnlyItsPieces : Obligations.InstructionWritesOnlyItsPieces := by
  refine ⟨exec_onlyWrites, fun i s w hrun hw hd hf => ?_⟩
  obtain ⟨t, ht, hframe⟩ := exec_onlyWrites i s.beginExecute ((faultOf_beginExecute i).trans hf)
  refine ⟨t, (step_of_decoded hrun hw hd).trans ht, OnlyWrites.refl.beginExecute.trans (hframe.mono ?_)⟩
  exact List.subset_cons_of_subset _ (List.subset_cons_self _ _)

/-! SUPPORT. The invariant `CoreInv` along instructions, steps, transactions and schedules. -/

section InvariantRules
variable {s t : State}

/-- The invariant looks at memory, the font table, the pc and the stack alone. -/
theorem CoreInv.congr (h : CoreInv s) (hfont : t.font = s.font) (hmem : t.mem = s.mem) (hpc : t.pc = s.pc)
    (hstack : t.stack = s.stack) : CoreInv t where
  memory := by rw [hfont, hmem]; exact h.memory
  pc := by rw [hpc]; exact h.pc
  stack k := by simp only [hstack]; exact h.stack k

theorem CoreInv.jump (h : CoreInv s) {a : Word} (ha : a.toNat ≤ 0x10FE) : CoreInv (s.jump a) where
  memory := h.memory
  pc := ha
  stack := h.stack

/-- A store that ends below 0x1000 keeps the invariant (R8, R29). -/
theorem CoreInv.writeBytes (h : CoreInv s) {a : Nat} {bs : List Byte} (ha : a + bs.length ≤ 0x1000) :
    CoreInv (s.writeBytes a bs) where
  memory := writeBytes_wf bs h.memory (.inr ha)
  pc := h.pc
  stack := h.stack

theorem CoreInv.faultedAt (h : CoreInv s) {p : Word} (hp : p.toNat ≤ 0x10FE) (k : FaultKind) (w : Option Word)
    (n : Nat) : CoreInv (s.faultedAt k w p n) where
  memory := h.memory
  pc := hp
  stack := h.stack

theorem CoreInv.push (h : CoreInv s) {a : Word} (ha : a.toNat ≤ 0x1000) (ht : s.push a = some t) : CoreInv t := by
  obtain ⟨hsp, rfl⟩ := (push_eq_some_iff s a t).1 ht
  refine { h with stack := fun k => ?_ }
  rw [Vector.getElem_set]
  split
  · exact ha
  · exact h.stack k

/-- What a pop gives: the invariant, and a return address no higher than a CALL can push. -/
theorem CoreInv.pop (h : CoreInv s) {a : Word} (ht : s.pop = some (t, a)) : CoreInv t ∧ a.toNat ≤ 0x1000 := by
  obtain ⟨hsp, rfl, rfl⟩ := (pop_eq_some_iff s t a).1 ht
  exact ⟨h.congr rfl rfl rfl rfl, h.stack ⟨s.sp.val - 1, by omega⟩⟩

theorem CoreInv.loadRegsUpTo (h : CoreInv s) (x : RegIx) : CoreInv (s.loadRegsUpTo x) :=
  h.congr (loadRegsUpTo_font s x) (loadRegsUpTo_mem s x) (loadRegsUpTo_pc s x) (loadRegsUpTo_stack s x)

theorem CoreInv.advanceI (h : CoreInv s) (x : RegIx) : CoreInv (s.advanceI x) := h.congr rfl rfl rfl rfl

theorem coreInv_new (sq lq : Bool) (font : Vector Byte 80) : CoreInv (State.new sq lq font) where
  memory := nil_wf
  pc := show (0x200 : Word).toNat ≤ 0x10FE by decide
  stack k := by simp [State.new]

end InvariantRules

/-- The invariant as the execute phase finds it: the pc is the address of a fetched word plus 2 (R32, R40). -/
structure ExecuteReady (s : State) : Prop extends CoreInv s where
  two_le_pc : 2 ≤ s.pc.toNat
  pc_le : s.pc.toNat ≤ 0x1000

section InvariantAlongExecution
variable {s : State}

theorem CoreInv.beginExecute (h : CoreInv s) (hpc : s.pc.toNat < 0xFFF) : ExecuteReady s.beginExecute := by
  have hadv : s.beginExecute.pc.toNat = s.pc.toNat + 2 := by
    rw [beginExecute_pc]; bv_omega
  exact
    { memory := h.memory, pc := by omega, stack := h.stack, two_le_pc := by omega, pc_le := by omega }

/-- The rewound pc is the instruction's own address (R84, R91). -/
theorem ExecuteReady.rewound_pc_le (h : ExecuteReady s) : (s.pc - 2).toNat ≤ 0x10FE := by
  have h₁ := h.two_le_pc
  have h₂ := h.pc_le
  bv_omega

theorem ExecuteReady.skipIf (h : ExecuteReady s) (c : Bool) : CoreInv (s.skipIf c) where
  memory := h.memory
  pc := by
    have := h.pc_le
    rw [skipIf_pc]
    split <;> bv_omega
  stack := h.stack

theorem ExecuteReady.raise (h : ExecuteReady s) (k : FaultKind) (w : Word) (n : Nat) :
    ∃ t, raise k w n s = .next t ∧ CoreInv t :=
  ⟨_, raise_eq s k w n, h.faultedAt h.rewound_pc_le k _ n⟩

theorem zext16_le (nnn : Addr) : (zext16 nnn).toNat ≤ 0xFFF := by
  unfold zext16; bv_omega

/-- The highest target of Bnnn is 0xFFF + 0xFF, which sets the invariant's bound on the pc (R12, R56). -/
theorem jpV0_target_le (nnn : Addr) (b : Byte) : (zext16 nnn + byteAsWord b).toNat ≤ 0x10FE := by
  unfold zext16 byteAsWord; bv_omega

/-- Every instruction answers a next state, which keeps the invariant. -/
theorem exec_coreInv (i : Instr) (h : ExecuteReady s) : ∃ t, exec i s = .next t ∧ CoreInv t := by
  have hs : CoreInv s := h.toCoreInv
  match i with
  | .cls | .ldImm _ _ | .addImm _ _ | .ldReg _ _ | .orReg _ _ | .andReg _ _ | .xorReg _ _ | .addReg _ _
  | .subReg _ _ | .shrReg _ _ | .subnReg _ _ | .shlReg _ _ | .rnd _ _ | .ldVxDt _ | .ldDtVx _ | .ldStVx _
  | .ldI _ | .addIVx _ | .ldFVx _ => exact ⟨_, rfl, hs.congr rfl rfl rfl rfl⟩
  | .seImm _ _ | .sneImm _ _ | .seReg _ _ | .sneReg _ _ => exact ⟨_, rfl, h.skipIf _⟩
  | .jp nnn => exact ⟨_, rfl, hs.jump ((zext16_le nnn).trans (by decide))⟩
  | .jpV0 nnn => exact ⟨_, rfl, hs.jump (jpV0_target_le nnn _)⟩
  | .sys _ => exact h.raise _ _ _
  | .ret =>
    cases hpop : s.pop with
    | none => rw [exec_ret_of_empty hpop]; exact h.raise _ _ _
    | some p =>
      obtain ⟨hinv, hle⟩ := hs.pop hpop
      exact ⟨_, exec_ret_of_pop hpop, hinv.jump (hle.trans (by decide))⟩
  | .call nnn =>
    cases hpush : s.push s.pc with
    | none => rw [exec_call_of_full hpush]; exact h.raise _ _ _
    | some t =>
      exact ⟨_, exec_call_of_push hpush, (hs.push h.pc_le hpush).jump ((zext16_le nnn).trans (by decide))⟩
  | .skp _ | .sknp _ =>
    simp only [exec, execSkp, execSknp]
    split
    · exact h.raise _ _ _
    · exact ⟨_, rfl, h.skipIf _⟩
  | .ldVxK _ =>
    cases hk : s.firstPressed with
    | some k => exact ⟨_, exec_ldVxK_of_pressed hk, hs.congr rfl rfl rfl rfl⟩
    | none => exact ⟨_, exec_ldVxK_of_waiting hk, hs.jump h.rewound_pc_le⟩
  | .drw _ _ _ =>
    simp only [exec, execDrw]
    split
    · exact ⟨_, rfl, hs.congr rfl rfl rfl rfl⟩
    · exact h.raise _ _ _
  | .ldVxMem x =>
    simp only [exec, execLdVxMem]
    split
    · exact ⟨_, rfl, (hs.loadRegsUpTo x).advanceI x⟩
    · exact h.raise _ _ _
  | .ldBVx _ =>
    simp only [exec, execLdBVx]
    split
    · next hin => exact ⟨_, rfl, hs.writeBytes (by simpa using hin)⟩
    · exact h.raise _ _ _
  | .ldMemVx x =>
    simp only [exec, execLdMemVx]
    split
    · next hin => exact ⟨_, rfl, (hs.writeBytes (by simpa using hin)).advanceI x⟩
    · exact h.raise _ _ _

/-- Every step answers a next state, which keeps the invariant. -/
theorem step_coreInv (h : CoreInv s) : ∃ t, step s = .next t ∧ CoreInv t := by
  by_cases hrun : s.fault = none
  · rw [step_of_running s hrun]
    obtain ⟨-, hc⟩ | ⟨hpc, w, -, ⟨_, -, hc⟩ | ⟨i, -, hc⟩⟩ := cycle_cases s
    · exact ⟨_, hc, h.faultedAt h.pc _ _ _⟩
    · exact ⟨_, hc, h.faultedAt h.pc _ _ _⟩
    · rw [hc]; exact exec_coreInv i (h.beginExecute hpc)
  · exact ⟨s, step_of_halted s hrun, h⟩

end InvariantAlongExecution

section InvariantAlongSchedules
variable {s : State}

theorem stateAfter_stepWith_coreInv (h : CoreInv s) (r : Byte) : CoreInv (stateAfter s (stepWith r s)) := by
  by_cases hrun : s.fault = none
  · obtain ⟨t, ht, hinv⟩ := step_coreInv (s := { s with random := r }) (h.congr rfl rfl rfl rfl)
    rw [stepWith_of_running hrun, ht]
    exact hinv
  · rw [stepWith, if_pos (Option.isSome_iff_ne_none.2 hrun)]
    exact h

/-- An image that fits is a store below 0x1000; one that does not, and one on a halted core, writes no byte (R107,
R108, R92). -/
theorem stateAfter_loadProgram_coreInv (h : CoreInv s) (bytes : List Byte) :
    CoreInv (stateAfter s (loadProgram bytes s)) := by
  unfold loadProgram
  split
  · exact h
  · split
    · next hfits => exact h.writeBytes hfits
    · exact h.congr rfl rfl rfl rfl

theorem transact_coreInv (h : CoreInv s) (t : Transaction) : CoreInv (transact t s).2 :=
  match t with
  | .new sq lq font => (coreInv_new sq lq font).congr rfl rfl rfl rfl
  | .loadProgram bytes => stateAfter_loadProgram_coreInv h bytes
  | .step r => stateAfter_stepWith_coreInv h r
  | .tickTimers | .keyDown _ | .keyUp _ => h.congr rfl rfl rfl rfl
  | .readFramebuffer | .readDraw | .readSound | .readDelayTimer | .readFault => h

end InvariantAlongSchedules

/-- Settles O4, by induction on the schedule: every transaction keeps the invariant. -/
theorem everyScheduleKeepsInvariant : Obligations.EveryScheduleKeepsInvariant := by
  intro ts
  induction ts with
  | nil => exact fun _ h => h
  | cons t ts ih => exact fun s h => ih _ (transact_coreInv h t)

end Sys2Proof.Machine

/-! SUPPORT. The fault side of an instruction and of a step: with the frame rules above, everything a step of a running
core can do. -/

namespace Sys2Proof.Machine

section FaultRules
variable {s : State} {x y : RegIx} {n : Nibble} {k : FaultKind} {info : Nat}

/-! The rows of `faultOf` that give a fault, in the terms the machine tests. -/

/-- A row of `faultOf` that gives a fault meets its condition, and the fault is the row's. -/
theorem of_tabled_some {c : Prop} [Decidable c] {e e' : FaultKind × Nat}
    (h : (if c then some e else none) = some e') : c ∧ e = e' := by simpa using h

theorem blockOutOfRange_of_faultOf_ldBVx (h : faultOf s (.ldBVx x) = some (k, info)) :
    ¬ blockInRange (s.blockAddr 0) 3 = true ∧ (.outOfBounds .memoryAccess, max s.i.toNat 0x1000) = (k, info) := by
  obtain ⟨hout, he⟩ := of_tabled_some h
  exact ⟨by rw [blockInRange_iff, blockAddr_eq]; omega, he⟩

/-- The block of Fx55, and of Fx65, whose row of the table is the same. -/
theorem blockOutOfRange_of_faultOf_ldMemVx (h : faultOf s (.ldMemVx x) = some (k, info)) :
    ¬ blockInRange (s.blockAddr 0) (x.val + 1) = true ∧
      (.outOfBounds .memoryAccess, max s.i.toNat 0x1000) = (k, info) := by
  obtain ⟨hout, he⟩ := of_tabled_some h
  exact ⟨by rw [blockInRange_iff, blockAddr_eq]; omega, he⟩

theorem blockOutOfRange_of_faultOf_drw (h : faultOf s (.drw x y n) = some (k, info)) :
    ¬ blockInRange (s.blockAddr 0) n.toNat = true ∧
      (.outOfBounds .memoryAccess, max s.i.toNat 0x1000) = (k, info) := by
  obtain ⟨hout, he⟩ := of_tabled_some h
  exact ⟨by rw [blockInRange_iff, blockAddr_eq]; omega, he⟩

/-- The word of SYS nnn is nnn as a number (R57). -/
theorem encode_sys_toNat (nnn : Addr) : (encode (.sys nnn)).toNat = nnn.toNat := by
  rw [encode, wordA, BitVec.toNat_append]; simp

/-- An instruction that the table says raises a fault raises that fault and does nothing else (R87, R91). -/
theorem exec_of_faultOf (i : Instr) (h : faultOf s i = some (k, info)) :
    exec i s = .next (s.faultedAt k (some (encode i)) (s.pc - 2) info) := by
  match i, h with
  | .ret, h =>
    obtain ⟨hsp, ⟨⟩⟩ := of_tabled_some h
    rw [exec_ret_of_empty ((pop_eq_none_iff s).2 hsp), raise_eq, hsp]
  | .call _, h =>
    obtain ⟨hsp, ⟨⟩⟩ := of_tabled_some h
    rw [exec_call_of_full ((push_eq_none_iff s s.pc).2 hsp), raise_eq, hsp]
  | .sys nnn, h =>
    cases h
    rw [← encode_sys_toNat nnn]; rfl
  | .skp _, h | .sknp _, h =>
    obtain ⟨hkey, ⟨⟩⟩ := of_tabled_some h
    exact if_pos hkey
  | .ldBVx _, h =>
    obtain ⟨hout, ⟨⟩⟩ := blockOutOfRange_of_faultOf_ldBVx h
    exact if_neg hout
  | .ldMemVx _, h | .ldVxMem _, h =>
    obtain ⟨hout, ⟨⟩⟩ := blockOutOfRange_of_faultOf_ldMemVx h
    exact if_neg hout
  | .drw _ _ _, h =>
    obtain ⟨hout, ⟨⟩⟩ := blockOutOfRange_of_faultOf_drw h
    exact if_neg hout

/-- Undoing the pc's advance gives the instruction's own address: a fault after the start of the execute phase is a
fault of the state before it (R91). -/
theorem faultedAt_beginExecute (k : FaultKind) (w : Option Word) (info : Nat) :
    s.beginExecute.faultedAt k w (s.beginExecute.pc - 2) info = s.faultedAt k w s.pc info := by
  simp [State.faultedAt, State.beginExecute]

/-- Everything a step of a running core can do (R40, R91): it faults at its own address and writes nothing else, or the
fetched word decodes to an instruction whose execution completes and writes only that instruction's pieces. -/
theorem step_cases (hrun : s.fault = none) :
    (∃ k w info, step s = .next (s.faultedAt k w s.pc info)) ∨
    ∃ w i t, s.fetchWord = some w ∧ decodeWord w = .ok i ∧ faultOf s i = none ∧ step s = .next t ∧
      exec i s.beginExecute = .next t ∧ OnlyWrites (writes s.shiftQuirk s.loadStoreQuirk i) s.beginExecute t := by
  obtain ⟨-, hc⟩ | ⟨-, w, hw, ⟨_, -, hc⟩ | ⟨i, hd, -⟩⟩ := cycle_cases s
  · exact .inl ⟨_, _, _, (step_of_running s hrun).trans hc⟩
  · exact .inl ⟨_, _, _, (step_of_running s hrun).trans hc⟩
  · have hstep := step_of_decoded hrun hw hd
    cases hf : faultOf s i with
    | some e => exact .inl ⟨_, _, _, by
      rw [hstep, exec_of_faultOf i ((faultOf_beginExecute i).trans hf), faultedAt_beginExecute]⟩
    | none =>
      obtain ⟨t, ht, hframe⟩ := exec_onlyWrites i s.beginExecute hf
      exact .inr ⟨w, i, t, hw, hd, hf, hstep.trans ht, ht, hframe⟩

end FaultRules

/-! SUPPORT. What the host's `load_program` and its `step` on a halted core leave (60_exceptions.md R92, R96). -/

section HostOperations
variable (s : State)

/-- Everything a `load_program` can leave: the core as it was where it is halted, the image stored where it fits, and
else the fault recorded (R92, R107, R108). -/
theorem stateAfter_loadProgram_cases (bytes : List Byte) :
    (s.fault ≠ none ∧ stateAfter s (loadProgram bytes s) = s) ∨
    (s.fault = none ∧ 0x200 + bytes.length ≤ 0x1000 ∧
      stateAfter s (loadProgram bytes s) = s.writeBytes 0x200 bytes) ∨
    (s.fault = none ∧ ¬ 0x200 + bytes.length ≤ 0x1000 ∧
      stateAfter s (loadProgram bytes s) = s.recordFault (programLoadFault s bytes.length)) := by
  unfold loadProgram
  split
  · next hhalt => exact .inl ⟨Option.isSome_iff_ne_none.1 hhalt, rfl⟩
  · next hrun =>
    have hnone : s.fault = none := by simpa using hrun
    split
    · next hfits => exact .inr (.inl ⟨hnone, hfits, rfl⟩)
    · next hlong => exact .inr (.inr ⟨hnone, hlong, rfl⟩)

/-- A step that the host asks of a halted core changes nothing (R92). -/
theorem stepWith_of_halted (h : s.fault ≠ none) (r : Byte) : stepWith r s = .next s := by
  rw [stepWith, if_pos (Option.isSome_iff_ne_none.2 h)]

theorem stateAfter_loadProgram_key (bytes : List Byte) : (stateAfter s (loadProgram bytes s)).key = s.key := by
  obtain ⟨-, h⟩ | ⟨-, -, h⟩ | ⟨-, -, h⟩ := stateAfter_loadProgram_cases s bytes <;> rw [h]
  · exact writeBytes_key s _ _
  · exact recordFault_key s _

theorem stateAfter_loadProgram_draw (bytes : List Byte) : (stateAfter s (loadProgram bytes s)).draw = s.draw := by
  obtain ⟨-, h⟩ | ⟨-, -, h⟩ | ⟨-, -, h⟩ := stateAfter_loadProgram_cases s bytes <;> rw [h]
  · exact writeBytes_draw s _ _
  · exact recordFault_draw s _

end HostOperations

/-! SUPPORT. The invariant along a step, the reset state, the keypad and the draw signal (10_state.md R12, R17, R25,
R26). -/

/-- Settles O3: every step answers one next state, and that state meets the invariant. -/
theorem stepKeepsInvariant : Obligations.StepKeepsInvariant := by
  intro s t h ht
  obtain ⟨t', ht', hinv⟩ := step_coreInv h
  cases ht.symm.trans ht'
  exact hinv

section ResetState

/-- Settles O2: a new core lists no memory byte, and its pc and stack are below their bounds. -/
theorem newCoreMeetsInvariant : Obligations.NewCoreMeetsInvariant :=
  ⟨coreInv_new, coreInv_new _ _ _⟩

theorem reg_new (sq lq : Bool) (font : Vector Byte 80) (r : RegIx) : (State.new sq lq font).reg r = 0 :=
  Vector.getElem_replicate r.isLt

theorem cell_new (sq lq : Bool) (font : Vector Byte 80) (c : Nat) : (State.new sq lq font).cell c = false :=
  cell_blank c

/-- Settles O1: memory, the registers and the framebuffer by their own lemmas, every other piece by its value in
`State.new`; the host's `new` keeps nothing of the old core but the model's free draw. -/
theorem newCoreHoldsResetValues : Obligations.NewCoreHoldsResetValues := by
  intro sq lq font
  have hfont (a : Nat) (h : a < 80) : (State.new sq lq font).readByte a = font[a] :=
    (readByte_new sq lq font a).trans (dif_pos h)
  have hzero (a : Nat) (h : 80 ≤ a) : (State.new sq lq font).readByte a = 0 :=
    (readByte_new sq lq font a).trans (dif_neg (by omega))
  have hstack (k : Fin 16) : (State.new sq lq font).stack[k.val] = 0 := Vector.getElem_replicate k.isLt
  have hkey (k : Fin 16) : (State.new sq lq font).key[k.val] = false := Vector.getElem_replicate k.isLt
  exact ⟨hfont, hzero, reg_new sq lq font, rfl, rfl, hstack, rfl, rfl, rfl, hkey, cell_new sq lq font, rfl, rfl, rfl,
    rfl, rfl, rfl, fun old => ⟨old.random, old.draws, rfl⟩⟩

end ResetState

section Keypad

/-- Every step answers a next state with the keypad as it was (R17). -/
theorem step_keeps_key (s : State) : ∃ t, step s = .next t ∧ t.key = s.key := by
  by_cases hrun : s.fault = none
  · obtain ⟨_, _, _, ht⟩ | ⟨_, _, t, -, -, -, ht, -, hframe⟩ := step_cases hrun
    · exact ⟨_, ht, faultedAt_key s _ _ _ _⟩
    · exact ⟨t, ht, hframe.key⟩
  · exact ⟨s, step_of_halted s hrun, rfl⟩

theorem stateAfter_stepWith_key (s : State) (r : Byte) : (stateAfter s (stepWith r s)).key = s.key := by
  by_cases hrun : s.fault = none
  · obtain ⟨t, ht, hkey⟩ := step_keeps_key { s with random := r }
    rw [stepWith_of_running hrun, ht]
    exact hkey
  · rw [stepWith_of_halted s hrun]
    rfl

/-- Settles O52: a fault and the frame of every instruction leave the keypad, and so does each transaction that is not
one of the three excepted. -/
theorem onlyTheHostWritesKeys : Obligations.OnlyTheHostWritesKeys := by
  refine ⟨fun s t ht => ?_, fun c s hdown hup hnew => ?_⟩
  · obtain ⟨t', ht', hkey⟩ := step_keeps_key s
    cases ht.symm.trans ht'
    exact hkey
  · match c with
    | .keyDown k => exact absurd rfl (hdown k)
    | .keyUp k => exact absurd rfl (hup k)
    | .new sq lq font => exact absurd rfl (hnew sq lq font)
    | .loadProgram bytes => exact stateAfter_loadProgram_key s bytes
    | .step r => exact stateAfter_stepWith_key s r
    | .tickTimers | .readFramebuffer | .readDraw | .readSound | .readDelayTimer | .readFault => rfl

end Keypad

section DrawSignal
variable {s t : State} {i : Instr}

/-- The instructions that draw (R25, R79, R80). -/
def Draws (i : Instr) : Prop := i = .cls ∨ ∃ x y n, i = .drw x y n

/-- A result is a drawing instruction exactly when it is CLS or some DRW. -/
theorem exists_draws_iff {d : Except DecodeError Instr} :
    (∃ i, d = .ok i ∧ Draws i) ↔ d = .ok .cls ∨ ∃ x y n, d = .ok (.drw x y n) := by
  constructor
  · rintro ⟨_, hd, rfl | ⟨x, y, n, rfl⟩⟩
    · exact .inl hd
    · exact .inr ⟨x, y, n, hd⟩
  · rintro (hd | ⟨x, y, n, hd⟩)
    · exact ⟨_, hd, .inl rfl⟩
    · exact ⟨_, hd, .inr ⟨x, y, n, rfl⟩⟩

/-- By their rules, only the drawing instructions may write the draw signal. -/
theorem draw_not_mem_writes (sq lq : Bool) (h : ¬ Draws i) : Piece.draw ∉ writes sq lq i := by
  cases i with
  | cls => exact absurd (.inl rfl) h
  | drw x y n => exact absurd (.inr ⟨x, y, n, rfl⟩) h
  | shrReg | shlReg => cases sq <;> simp [writes]
  | ldMemVx | ldVxMem => cases lq <;> simp [writes]
  | _ => simp [writes]

/-- A drawing instruction that completes sets the draw signal, even where no cell changed (R79, R80). -/
theorem exec_draw_of_draws (h : Draws i) (hf : faultOf s i = none) (ht : exec i s = .next t) : t.draw = true := by
  obtain rfl | ⟨x, y, n, rfl⟩ := h
  · cases ht
    rfl
  · have hin : blockInRange (s.blockAddr 0) n.toNat = true := blockInRange_of_faultOf_drw hf
    cases (if_pos hin).symm.trans ht
    rfl

/-- After a step of a running core the draw signal is true exactly when no fault was raised and the fetched word is a
drawing instruction (R25, R113). -/
theorem step_draw_iff (hrun : s.fault = none) (ht : step s = .next t) :
    t.draw = true ↔ t.fault = none ∧ ∃ w, s.fetchWord = some w ∧ ∃ i, decodeWord w = .ok i ∧ Draws i := by
  obtain ⟨_, _, _, hstep⟩ | ⟨w, i, t', hw, hd, hf, hstep, hexec, hframe⟩ := step_cases hrun <;>
    cases ht.symm.trans hstep
  · simp
  · constructor
    · intro hdraw
      refine ⟨hframe.fault.trans hrun, w, hw, i, hd, ?_⟩
      by_contra hnot
      have hkept : t.draw = false := hframe.draw (draw_not_mem_writes _ _ hnot)
      simp [hkept] at hdraw
    · rintro ⟨-, w', hw', i', hd', hdraws⟩
      cases hw.symm.trans hw'
      cases hd.symm.trans hd'
      exact exec_draw_of_draws hdraws ((faultOf_beginExecute i).trans hf) hexec

end DrawSignal

/-- Settles O53: the step's own rule for the draw signal, and each other transaction's frame. -/
theorem drawSignalIsRecomputed : Obligations.DrawSignalIsRecomputed := by
  refine ⟨fun s t hrun ht => (step_draw_iff hrun ht).trans ?_, fun c s hstep hnew => ?_⟩
  · simp only [exists_draws_iff]
  · match c with
    | .step r => exact absurd rfl (hstep r)
    | .new sq lq font => exact absurd rfl (hnew sq lq font)
    | .loadProgram bytes => exact stateAfter_loadProgram_draw s bytes
    | .tickTimers | .keyDown _ | .keyUp _ | .readFramebuffer | .readDraw | .readSound | .readDelayTimer
    | .readFault => rfl

end Sys2Proof.Machine

/-! SUPPORT. The fetch and the decode of a step (20_memory.md R32, 30_encoding.md R40, R45), and the bytes that Fx55
leaves in memory (42_index_memory.md R75). -/

namespace Sys2Proof

section DecodedWellFormed
variable {w : Word} {i : Instr}

/-! No row of the families 0x8, 0xE and 0xF is SYS, the one mnemonic that the decode's precedence restricts (R45). -/

theorem wellFormed_of_decodeAlu (h : decodeAlu w = .ok i) : i.wellFormed = true := by
  unfold decodeAlu at h
  split at h <;> cases h <;> rfl

theorem wellFormed_of_decodeKey (h : decodeKey w = .ok i) : i.wellFormed = true := by
  unfold decodeKey at h
  split at h <;> cases h <;> rfl

theorem wellFormed_of_decodeMisc (h : decodeMisc w = .ok i) : i.wellFormed = true := by
  unfold decodeMisc at h
  split at h <;> cases h <;> rfl

/-- A word with opcode nibble 0 is its NNN, so one that is neither CLS's nor RET's has neither's NNN (R45, R57). -/
theorem wellFormed_sys (hop : fieldOp w = 0#4) (hcls : w ≠ 0x00E0#16) (hret : w ≠ 0x00EE#16) :
    (Instr.sys (fieldNNN w)).wellFormed = true := by
  have hw : wordA 0#4 (fieldNNN w) = w := hop ▸ wordA_fields w
  have hne₁ : fieldNNN w ≠ 0x0E0#12 := fun e => hcls (by rw [← hw, e]; rfl)
  have hne₂ : fieldNNN w ≠ 0x0EE#12 := fun e => hret (by rw [← hw, e]; rfl)
  simp [Instr.wellFormed, hne₁, hne₂]

/-- What a word decodes to is well formed (R45): the arms in the order of the opcode nibble, `h_1` that of nibble 0. -/
theorem wellFormed_of_decodeWord (h : decodeWord w = .ok i) : i.wellFormed = true := by
  unfold decodeWord at h
  split at h
  case h_1 hop =>
    split at h
    · cases h; rfl
    · next hcls =>
      split at h
      · cases h; rfl
      · next hret =>
        cases h
        exact wellFormed_sys (BitVec.eq_of_toNat_eq hop) hcls hret
  case h_9 => exact wellFormed_of_decodeAlu h
  case h_15 => exact wellFormed_of_decodeKey h
  case h_16 => exact wellFormed_of_decodeMisc h
  case h_6 | h_10 =>
    split at h
    · cases h; rfl
    · cases h
  case h_17 => cases h
  all_goals cases h; rfl

/-- Two bytes that decode are one word that decodes, and none is left over (R41). -/
theorem decode_pair_eq_ok {hi lo : Byte} {rest : List Byte} (h : decode [hi, lo] = .ok (i, rest)) :
    decodeWord (wordOfBytes hi lo) = .ok i ∧ rest = [] := by
  cases hd : decodeWord (wordOfBytes hi lo) with
  | error e => simp [decode, hd, Except.map] at h
  | ok j => simpa [decode, hd, Except.map, eq_comm] using h

end DecodedWellFormed

end Sys2Proof

namespace Sys2Proof.Machine

/-- Settles O6: the pair decodes as one word, which is the word the step fetches. -/
theorem stepRunsDecodedInstruction : Obligations.StepRunsDecodedInstruction := by
  intro s i rest hrun hpc hdec
  obtain ⟨hword, hrest⟩ := decode_pair_eq_ok hdec
  exact ⟨wellFormed_of_decodeWord hword, hrest, step_of_decoded hrun (fetchWord_of_lt s hpc) hword⟩

/-- The step of a running core whose pc leaves no room for a word faults before any other effect (R32, D7). -/
theorem step_of_fetch_fault {s : State} (hrun : s.fault = none) (hpc : 0xFFF ≤ s.pc.toNat) :
    step s = .next (s.faultedAt (.outOfBounds .fetch) none s.pc s.pc.toNat) := by
  obtain ⟨-, hc⟩ | ⟨hlt, -⟩ := cycle_cases s
  · exact (step_of_running s hrun).trans hc
  · omega

/-- Settles O13: the word of a fetch as a number, and the fetch fault. -/
theorem fetchIsBigEndianOrFaults : Obligations.FetchIsBigEndianOrFaults := fun s =>
  ⟨fun hpc => ⟨_, fetchWord_of_lt s hpc, wordOfBytes_toNat _ _⟩, step_of_fetch_fault⟩

section StoredRegisters
variable {s : State} {x r : RegIx}

/-- Fx55 on a block inside memory: the store, then the advance of I (R75). -/
theorem exec_ldMemVx_of_inRange (h : s.i.toNat + x.val ≤ 0xFFF) :
    exec (.ldMemVx x) s = .next ((s.writeBytes (s.blockAddr 0) (s.regsUpTo x)).advanceI x) := by
  have hin : blockInRange (s.blockAddr 0) (x.val + 1) = true := by
    rw [blockInRange_iff, blockAddr_eq]; omega
  exact if_pos hin

/-- A register up to Vx that Fx55 stores is read back at its place in the block (R31, R75). -/
theorem readByte_storedRegs (hr : r ≤ x) :
    ((s.writeBytes (s.blockAddr 0) (s.regsUpTo x)).advanceI x).readByte (s.i.toNat + r.val) = s.reg r := by
  have hlen : r.val < (s.regsUpTo x).length := Nat.lt_of_le_of_lt (Fin.le_def.1 hr) (by simp)
  calc ((s.writeBytes (s.blockAddr 0) (s.regsUpTo x)).advanceI x).readByte (s.i.toNat + r.val)
      = (s.regsUpTo x)[r.val] := readByte_writeBytes_inside s s.i.toNat (s.regsUpTo x) r.val hlen
    _ = s.reg r := regsUpTo_getElem s x r.val hlen

end StoredRegisters

/-- Settles O38: the fetch reads the two bytes at the pc as memory holds them, and those are the stored registers. -/
theorem fetchSeesStores : Obligations.FetchSeesStores := by
  intro x s k hk hin
  refine ⟨_, exec_ldMemVx_of_inRange hin, fun u hmem hpc lo hi hhi hlo => ?_⟩
  have hhi_read : u.readByte u.pc.toNat = s.reg hi := by
    rw [hmem, hpc, ← hhi]; exact readByte_storedRegs (Fin.le_def.2 (by omega))
  have hlo_read : u.readByte (u.pc.toNat + 1) = s.reg lo := by
    rw [hmem, hpc, Nat.add_assoc, ← hlo]; exact readByte_storedRegs (Fin.le_def.2 (by omega))
  rw [fetchWord_of_lt u (by omega), hhi_read, hlo_read, wordOfBytes]

end Sys2Proof.Machine

/-! SUPPORT. The decoder and the encoder as inverses of each other, and the words that decode to nothing (30_encoding.md
R41 to R47). -/

namespace Sys2Proof

section DecodeOfEncode
variable {i : Instr} {nnn : Addr}

/-- Words of format A with one opcode nibble differ where their NNN does (R42). -/
theorem wordA_injective (op : Nibble) : Function.Injective (wordA op) :=
  Function.LeftInverse.injective (fieldNNN_wordA op)

/-- SYS is what nibble 0 leaves once CLS and RET are taken out (R45, R57). -/
theorem decodeWord_wordA_sys (hcls : nnn ≠ 0x0E0#12) (hret : nnn ≠ 0x0EE#12) :
    decodeWord (wordA 0x0#4 nnn) = .ok (.sys nnn) := by
  have hcls' : wordA 0x0#4 nnn ≠ 0x00E0#16 := (wordA_injective 0x0#4).ne hcls
  have hret' : wordA 0x0#4 nnn ≠ 0x00EE#16 := (wordA_injective 0x0#4).ne hret
  simp [decodeWord, hcls', hret']

/-- The word of a well-formed instruction decodes to it: the fields of its format select the opcode map's arm and give
the operands back; only the families 0x8, 0xE and 0xF look further than the opcode nibble (R44). -/
theorem decodeWord_encode (h : i.wellFormed = true) : decodeWord (encode i) = .ok i := by
  match i, h with
  | .cls, _ | .ret, _ => rfl
  | .sys nnn, h =>
    obtain ⟨hcls, hret⟩ : nnn ≠ 0x0E0#12 ∧ nnn ≠ 0x0EE#12 := by simpa [Instr.wellFormed] using h
    exact decodeWord_wordA_sys hcls hret
  | .jp _, _ | .call _, _ | .ldI _, _ | .jpV0 _, _ | .seImm _ _, _ | .sneImm _ _, _ | .ldImm _ _, _ | .addImm _ _, _
  | .rnd _ _, _ | .seReg _ _, _ | .sneReg _ _, _ | .drw _ _ _, _ => simp [encode, decodeWord]
  | .ldReg _ _, _ | .orReg _ _, _ | .andReg _ _, _ | .xorReg _ _, _ | .addReg _ _, _ | .subReg _ _, _
  | .shrReg _ _, _ | .subnReg _ _, _ | .shlReg _ _, _ => simp [encode, decodeWord, decodeAlu]
  | .skp _, _ | .sknp _, _ => simp [encode, decodeWord, decodeKey]
  | .ldVxDt _, _ | .ldVxK _, _ | .ldDtVx _, _ | .ldStVx _, _ | .addIVx _, _ | .ldFVx _, _ | .ldBVx _, _
  | .ldMemVx _, _ | .ldVxMem _, _ => simp [encode, decodeWord, decodeMisc]

end DecodeOfEncode

/-- Settles O7: decoding the bytes of a word is decoding the word, and the word of an instruction decodes to it. -/
theorem decodeOfEncodedInstruction : Obligations.DecodeOfEncodedInstruction := by
  intro i rest h
  rw [decode_bytesOfWord, decodeWord_encode h]
  rfl

section EncodeOfDecode
variable {w : Word} {i : Instr} {op n : Nibble} {nn : Byte}

/-! A word is put together again from its fields and the constants the decoder has compared, as numbers, with its
opcode nibble and its low field. -/

theorem wordA_of_op (hop : (fieldOp w).toNat = op.toNat) : wordA op (fieldNNN w) = w :=
  BitVec.eq_of_toNat_eq hop ▸ wordA_fields w

theorem wordXNN_of_op (hop : (fieldOp w).toNat = op.toNat) :
    wordXNN op (regBits (regOf (fieldX w))) (fieldNN w) = w :=
  BitVec.eq_of_toNat_eq hop ▸ wordXNN_fields w

theorem wordXNN_of_op_nn (hop : (fieldOp w).toNat = op.toNat) (hnn : (fieldNN w).toNat = nn.toNat) :
    wordXNN op (regBits (regOf (fieldX w))) nn = w :=
  BitVec.eq_of_toNat_eq hnn ▸ wordXNN_of_op hop

theorem wordXYN_of_op (hop : (fieldOp w).toNat = op.toNat) :
    wordXYN op (regBits (regOf (fieldX w))) (regBits (regOf (fieldY w))) (fieldN w) = w :=
  BitVec.eq_of_toNat_eq hop ▸ wordXYN_fields w

theorem wordXYN_of_op_n (hop : (fieldOp w).toNat = op.toNat) (hn : (fieldN w).toNat = n.toNat) :
    wordXYN op (regBits (regOf (fieldX w))) (regBits (regOf (fieldY w))) n = w :=
  BitVec.eq_of_toNat_eq hn ▸ wordXYN_of_op hop

theorem encode_of_decodeAlu (hop : (fieldOp w).toNat = 0x8) (h : decodeAlu w = .ok i) : encode i = w := by
  unfold decodeAlu at h
  split at h <;> cases h
  all_goals next hn => exact wordXYN_of_op_n hop hn

theorem encode_of_decodeKey (hop : (fieldOp w).toNat = 0xE) (h : decodeKey w = .ok i) : encode i = w := by
  unfold decodeKey at h
  split at h <;> cases h
  all_goals next hnn => exact wordXNN_of_op_nn hop hnn

theorem encode_of_decodeMisc (hop : (fieldOp w).toNat = 0xF) (h : decodeMisc w = .ok i) : encode i = w := by
  unfold decodeMisc at h
  split at h <;> cases h
  all_goals next hnn => exact wordXNN_of_op_nn hop hnn

/-- A word that decodes is the word of what it decodes to: the arms in the order of the opcode nibble, `h_1` that of
nibble 0, grouped by the format of their words (R42, R44). -/
theorem encode_of_decodeWord (h : decodeWord w = .ok i) : encode i = w := by
  unfold decodeWord at h
  split at h
  case h_1 hop =>
    split at h
    · next hcls => cases h; exact hcls.symm
    · split at h
      · next hret => cases h; exact hret.symm
      · cases h; exact wordA_of_op hop
  case h_2 hop | h_3 hop | h_11 hop | h_12 hop => cases h; exact wordA_of_op hop
  case h_4 hop | h_5 hop | h_7 hop | h_8 hop | h_13 hop => cases h; exact wordXNN_of_op hop
  case h_6 hop | h_10 hop =>
    split at h
    · next hn => cases h; exact wordXYN_of_op_n hop (congrArg BitVec.toNat hn)
    · cases h
  case h_9 hop => exact encode_of_decodeAlu hop h
  case h_14 hop => cases h; exact wordXYN_of_op hop
  case h_15 hop => exact encode_of_decodeKey hop h
  case h_16 hop => exact encode_of_decodeMisc hop h
  case h_17 => cases h

end EncodeOfDecode

/-- Settles O8: the word from its fields, arm by arm, and the precedence of CLS and RET over SYS. -/
theorem encodeOfDecodedWord : Obligations.EncodeOfDecodedWord :=
  fun _ _ h => ⟨encode_of_decodeWord h, wellFormed_of_decodeWord h⟩

section UnknownWords
open Machine
variable {w : Word} {e : DecodeError}

theorem fieldOp_toNat (w : Word) : (fieldOp w).toNat = w.toNat / 4096 := by
  rw [fieldOp, BitVec.extractLsb'_toNat, Nat.shiftRight_eq_div_pow]; omega

theorem fieldN_toNat (w : Word) : (fieldN w).toNat = w.toNat % 16 := rfl

theorem fieldNN_toNat (w : Word) : (fieldNN w).toNat = w.toNat % 256 := rfl

/-! What each decoder rejects, with the one error it has for it. In a last arm, `imp_false` turns the compared values
that were passed over into inequalities. -/

theorem decodeAlu_eq_error_iff : decodeAlu w = .error e ↔
    .unknownOpcode w = e ∧ (fieldN w).toNat ∈ [0x8, 0x9, 0xA, 0xB, 0xC, 0xD, 0xF] := by
  unfold decodeAlu
  split
  case h_10 =>
    have hlt := (fieldN w).isLt
    have hin : (fieldN w).toNat ∈ [0x8, 0x9, 0xA, 0xB, 0xC, 0xD, 0xF] := by
      simp only [imp_false, List.mem_cons, List.not_mem_nil] at *
      omega
    simp [hin]
  all_goals next hn => simp [hn]

theorem decodeKey_eq_error_iff : decodeKey w = .error e ↔
    .unknownOpcode w = e ∧ (fieldNN w).toNat ∉ [0x9E, 0xA1] := by
  unfold decodeKey
  split
  case h_3 =>
    simp only [imp_false] at *
    simp [*]
  all_goals next hnn => simp [hnn]

theorem decodeMisc_eq_error_iff : decodeMisc w = .error e ↔
    .unknownOpcode w = e ∧ (fieldNN w).toNat ∉ [0x07, 0x0A, 0x15, 0x18, 0x1E, 0x29, 0x33, 0x55, 0x65] := by
  unfold decodeMisc
  split
  case h_10 =>
    simp only [imp_false] at *
    simp [*]
  all_goals next hnn => simp [hnn]

/-- A word is rejected exactly where R46 lists it, and its error names it: the arms in the order of the opcode nibble,
`h_1` that of nibble 0 and `h_17` that of no nibble. -/
theorem decodeWord_eq_error_iff : decodeWord w = .error e ↔ .unknownOpcode w = e ∧ UnknownWord w := by
  simp only [UnknownWord, ← fieldOp_toNat, ← fieldN_toNat, ← fieldNN_toNat]
  unfold decodeWord
  split
  case h_1 hop => split_ifs <;> simp [hop]
  case h_6 hop | h_10 hop =>
    by_cases hn : (fieldN w).toNat = 0 <;> simp [hop, hn, ← BitVec.toNat_inj]
  case h_9 hop => simp [hop, decodeAlu_eq_error_iff]
  case h_15 hop => simp [hop, decodeKey_eq_error_iff]
  case h_16 hop => simp [hop, decodeMisc_eq_error_iff]
  case h_17 =>
    have hlt := (fieldOp w).isLt
    simp only [imp_false] at *
    omega
  all_goals next hop => simp [hop]

end UnknownWords

/-- Settles O10: the words that the decoder rejects, and a word it does not reject is one it decodes. -/
theorem unknownWordsAreTheListedOnes : Obligations.UnknownWordsAreTheListedOnes := by
  refine fun w => ⟨by simp [decodeWord_eq_error_iff], fun hknown => ?_⟩
  cases hd : decodeWord w with
  | ok i => exact ⟨i, rfl⟩
  | error e => exact absurd (decodeWord_eq_error_iff.1 hd).2 hknown

/-- Settles O9: the decoder run on each word. -/
theorem writtenOutWordsDecode : Obligations.WrittenOutWordsDecode :=
  ⟨rfl, rfl, rfl, rfl, rfl, rfl, rfl, rfl, rfl, rfl, rfl⟩

end Sys2Proof

/-! SUPPORT. The steps of unknown words, of SYS and of a waiting Fx0A, and the byte at the RANDOM input
(30_encoding.md R40, R46, 40_control_flow.md R57, 44_keypad_timers.md R84, 41_alu.md R70). -/

namespace Sys2Proof.Machine

/-- Settles O5: a fault, a completed instruction and the step of a halted core are each a next state. -/
theorem everyStepAnswersNextState : Obligations.EveryStepAnswersNextState := by
  intro s
  by_cases hrun : s.fault = none
  · obtain ⟨_, _, _, ht⟩ | ⟨_, _, t, -, -, -, ht, -⟩ := step_cases hrun
    · exact ⟨_, ht⟩
    · exact ⟨t, ht⟩
  · exact ⟨s, step_of_halted s hrun⟩

/-- The step of a running core whose fetched word does not decode faults before any execute effect (R46, R88). -/
theorem step_of_undecodable {s : State} {w : Word} {e : DecodeError} (hrun : s.fault = none)
    (hw : s.fetchWord = some w) (hd : decodeWord w = .error e) :
    step s = .next (s.faultedAt .unknownOpcode (some w) s.pc w.toNat) := by
  simp only [step_of_running s hrun, cycle, hw, hd]
  rfl

/-- Settles O12: a word that R46 lists does not decode. -/
theorem unknownWordFaults : Obligations.UnknownWordFaults :=
  fun _ _ hrun hw hunknown => step_of_undecodable hrun hw (decodeWord_eq_error_iff.2 ⟨rfl, hunknown⟩)

/-- Settles O11: SYS is what nibble 0 leaves, and its row of the fault table always faults. -/
theorem sysWordsRaiseUnimplemented : Obligations.SysWordsRaiseUnimplemented := by
  refine fun nnn => ⟨by rintro rfl; rfl, by rintro rfl; rfl, fun hcls hret => ?_⟩
  have hd : decodeWord (0x0#4 ++ nnn) = .ok (.sys nnn) := decodeWord_wordA_sys hcls hret
  have hexec (s : State) := exec_of_faultOf (s := s) (.sys nnn) rfl
  refine ⟨hd, hexec, fun s hrun hw => ?_⟩
  rw [step_of_decoded hrun hw hd, hexec, faultedAt_beginExecute]
  rfl

section Waiting
variable {s : State} {x : RegIx}

theorem firstPressed_of_no_key (h : ∀ k : Fin 16, s.key[k.val] = false) : s.firstPressed = none :=
  (firstPressed_eq_none_iff s).2 fun k hk => (keyPressed_eq s ⟨k, hk⟩).trans (h ⟨k, hk⟩)

/-- The one key that is down is the first pressed. -/
theorem firstPressed_keyDown (h : ∀ k : Fin 16, s.key[k.val] = false) (k : Fin 16) :
    (s.keyDown k).firstPressed = some k.val := by
  refine (firstPressed_eq_some_iff _ _).2 ⟨k.isLt, ?_, fun j hj => ?_⟩
  · simp [keyPressed_eq]
  · have hne : k.val ≠ j := by omega
    rw [keyPressed_eq _ ⟨j, by omega⟩]
    simp [hne, h ⟨j, by omega⟩]

/-- Rewinding the pc leaves only the draw signal of the start of the execute phase (R84). -/
theorem rewind_beginExecute : s.beginExecute.jump (s.beginExecute.pc - 2) = { s with draw := false } := by
  simp [State.jump, State.beginExecute]

theorem step_of_ldVxK_waiting (hrun : s.fault = none) (hw : s.fetchWord = some (encode (.ldVxK x)))
    (hk : s.firstPressed = none) : step s = .next { s with draw := false } := by
  rw [← rewind_beginExecute]
  exact (step_of_decoded hrun hw (decodeWord_encode rfl)).trans (exec_ldVxK_of_waiting hk)

theorem step_of_ldVxK_pressed {k : Nat} (hrun : s.fault = none) (hw : s.fetchWord = some (encode (.ldVxK x)))
    (hk : s.firstPressed = some k) : step s = .next (s.beginExecute.setReg x (BitVec.ofNat 8 k)) :=
  (step_of_decoded hrun hw (decodeWord_encode rfl)).trans (exec_ldVxK_of_pressed hk)

end Waiting

/-- Settles O55: the word at the pc is that of Fx0A, which waits without a key and passes with the one just pressed. -/
theorem waitingEndsWithAKey : Obligations.WaitingEndsWithAKey := by
  rintro a s ⟨hrun, -, ⟨f, hw⟩, hkeys⟩
  have henc : s.fetchWord = some (encode (.ldVxK (regOf f))) := hw
  refine ⟨step_of_ldVxK_waiting hrun henc (firstPressed_of_no_key hkeys), fun k w hfetch => ?_⟩
  obtain rfl : w = wordXNN 0xF#4 f 0x0A#8 := Option.some.inj (hfetch.symm.trans hw)
  have hstep := step_of_ldVxK_pressed (s := s.keyDown k) hrun henc (firstPressed_keyDown hkeys k)
  rw [fieldX_wordXNN]
  refine ⟨_, hstep, rfl, rfl, ?_, OnlyWrites.refl.beginExecute.setReg _ _⟩
  rw [reg_setReg, if_pos rfl, BitVec.toNat_ofNat]
  omega

section StackEquations
variable (s : State)

theorem exec_ret_of_sp_pos (h : 0 < s.sp.val) : exec .ret s =
    .next (State.jump { s with sp := ⟨s.sp.val - 1, by omega⟩ } s.stack[s.sp.val - 1]) :=
  exec_ret_of_pop ((pop_eq_some_iff s _ _).2 ⟨h, rfl, rfl⟩)

theorem exec_call_of_sp_lt {nnn : Addr} (h : s.sp.val < 16) : exec (.call nnn) s =
    .next (State.jump { s with stack := s.stack.set s.sp.val s.pc, sp := ⟨s.sp.val + 1, by omega⟩ } (zext16 nnn)) :=
  exec_call_of_push ((push_eq_some_iff s s.pc _).2 ⟨h, rfl⟩)

end StackEquations

section RandomInput
variable {s : State} {i : Instr}

/-- An instruction other than Cxnn that completes does so with any byte at the RANDOM input, and keeps that byte: what
it tests and what it reads do not look at it (R70). -/
theorem exec_withRandom_of_completes (r : Byte) (hrnd : ∀ x nn, i ≠ .rnd x nn) (hf : faultOf s i = none) :
    ∃ t, exec i s = .next t ∧ exec i { s with random := r } = .next { t with random := r } := by
  match i, hf with
  | .rnd x nn, _ => exact absurd rfl (hrnd x nn)
  | .sys _, hf => simp [faultOf] at hf
  | .ret, hf =>
    have hsp := sp_pos_of_faultOf_ret hf
    exact ⟨_, exec_ret_of_sp_pos s hsp, exec_ret_of_sp_pos { s with random := r } hsp⟩
  | .call _, hf =>
    have hsp := sp_lt_of_faultOf_call hf
    exact ⟨_, exec_call_of_sp_lt s hsp, exec_call_of_sp_lt { s with random := r } hsp⟩
  | .skp _, hf | .sknp _, hf =>
    have hkey := key_le_of_faultOf_skp hf
    exact ⟨_, if_neg hkey, if_neg hkey⟩
  | .drw _ _ _, hf =>
    have hin := blockInRange_of_faultOf_drw hf
    exact ⟨_, if_pos hin, if_pos hin⟩
  | .ldBVx _, hf =>
    have hin := blockInRange_of_faultOf_ldBVx hf
    exact ⟨_, if_pos hin, if_pos hin⟩
  | .ldMemVx _, hf | .ldVxMem _, hf =>
    have hin := blockInRange_of_faultOf_ldMemVx hf
    exact ⟨_, if_pos hin, if_pos hin⟩
  | .ldVxK _, _ =>
    cases hk : s.firstPressed with
    | some k => exact ⟨_, exec_ldVxK_of_pressed hk, exec_ldVxK_of_pressed hk⟩
    | none => exact ⟨_, exec_ldVxK_of_waiting hk, exec_ldVxK_of_waiting hk⟩
  | .cls, _ | .jp _, _ | .jpV0 _, _ | .seImm _ _, _ | .sneImm _ _, _ | .seReg _ _, _ | .sneReg _ _, _ | .ldImm _ _, _
  | .addImm _ _, _ | .ldReg _ _, _ | .orReg _ _, _ | .andReg _ _, _ | .xorReg _ _, _ | .addReg _ _, _ | .subReg _ _, _
  | .shrReg _ _, _ | .subnReg _ _, _ | .shlReg _ _, _ | .ldI _, _ | .addIVx _, _ | .ldFVx _, _ | .ldVxDt _, _
  | .ldDtVx _, _ | .ldStVx _, _ => exact ⟨_, rfl, rfl⟩

/-- The same where the instruction faults, since the table of faults does not look at the byte either. -/
theorem exec_withRandom (s : State) (r : Byte) (hrnd : ∀ x nn, i ≠ .rnd x nn) :
    ∃ t, exec i s = .next t ∧ exec i { s with random := r } = .next { t with random := r } := by
  cases hf : faultOf s i with
  | none => exact exec_withRandom_of_completes r hrnd hf
  | some e => exact ⟨_, exec_of_faultOf i hf, exec_of_faultOf (s := { s with random := r }) i hf⟩

/-- A step that is no Cxnn commutes with presenting a byte: the halted check, the fetch and the decode do not look at
it, and neither does what is executed (R40, R70). -/
theorem step_withRandom (s : State) (r : Byte)
    (hrnd : ∀ w x nn, s.fetchWord = some w → decodeWord w ≠ .ok (.rnd x nn)) :
    ∃ t, step s = .next t ∧ step { s with random := r } = .next { t with random := r } := by
  by_cases hrun : s.fault = none
  · cases hw : s.fetchWord with
    | none =>
      have hpc := (fetchWord_eq_none_iff s).1 hw
      exact ⟨_, step_of_fetch_fault hrun hpc, step_of_fetch_fault (s := { s with random := r }) hrun hpc⟩
    | some w =>
      cases hd : decodeWord w with
      | error e =>
        exact ⟨_, step_of_undecodable hrun hw hd, step_of_undecodable (s := { s with random := r }) hrun hw hd⟩
      | ok i =>
        obtain ⟨t, ht, hr⟩ := exec_withRandom s.beginExecute r fun x nn hi => hrnd w x nn hw (hi ▸ hd)
        exact ⟨t, (step_of_decoded hrun hw hd).trans ht,
          (step_of_decoded (s := { s with random := r }) hrun hw hd).trans hr⟩
  · exact ⟨s, step_of_halted s hrun, step_of_halted _ hrun⟩

end RandomInput

/-- Settles O56: the transaction reports the step it takes, and a step that is no Cxnn commutes with the byte. -/
theorem randomInputMattersOnlyToRnd : Obligations.RandomInputMattersOnlyToRnd := by
  refine ⟨fun s r hrun => ?_, fun s t r hrnd ht => ?_⟩
  · obtain ⟨t, ht⟩ := everyStepAnswersNextState { s with random := r }
    exact ⟨t, ht, transact_step_of_next hrun ht⟩
  · obtain ⟨t', ht', hr⟩ := step_withRandom s r hrnd
    cases ht.symm.trans ht'
    exact ⟨hr, fun hrun => transact_step_of_next hrun hr⟩

end Sys2Proof.Machine

/-! SUPPORT. The instructions of 40_control_flow.md as their rules say them: the targets of the jumps, the condition of a
skip, and what CALL and RET do to the call stack (R49 to R56). -/

namespace Sys2Proof.Machine

section ControlFlowRules
variable {s : State} {i : Instr} {nnn : Addr}

theorem zext16_toNat (nnn : Addr) : (zext16 nnn).toNat = nnn.toNat := by
  unfold zext16; bv_omega

/-- The target of Bnnn is the sum in unbounded arithmetic: it is far below 0x10000 (R56). -/
theorem jpV0_target_toNat (nnn : Addr) (b : Byte) : (zext16 nnn + byteAsWord b).toNat = nnn.toNat + b.toNat := by
  unfold zext16 byteAsWord; bv_omega

/-- An instruction that answers `skipIf` passes two bytes exactly where the condition that its test decides holds. -/
theorem skips_iff {c : Bool} {P : Prop} [Decidable P] (hexec : exec i s = .next (s.skipIf c)) (hc : c = true ↔ P) :
    ∃ t, exec i s = .next t ∧ OnlyWrites [.pc] s t ∧ t.pc = if P then s.pc + 2 else s.pc :=
  ⟨_, hexec, OnlyWrites.refl.skipIf c, if_congr hc rfl rfl⟩

/-- Below SP = 16, CALL stores the pc in the slot at SP, raises SP and jumps (R51). -/
theorem exec_call_pushes (h : s.sp.val < 16) : ∃ t, exec (.call nnn) s = .next t ∧
    t.stack = s.stack.set s.sp.val s.pc ∧ t.sp.val = s.sp.val + 1 ∧ t.pc = zext16 nnn ∧
    OnlyWrites [.pc, .stack, .sp] s t :=
  ⟨_, exec_call_of_sp_lt s h, rfl, rfl, rfl, (OnlyWrites.refl.setStack _ _).jump _⟩

/-- Above SP = 0, RET lowers SP and jumps to the slot at the new SP, which it leaves (R49). -/
theorem exec_ret_pops (h : 0 < s.sp.val) : ∃ t, exec .ret s = .next t ∧ t.sp.val + 1 = s.sp.val ∧
    t.pc = s.stack[s.sp.val - 1] ∧ OnlyWrites [.pc, .sp] s t :=
  ⟨_, exec_ret_of_sp_pos s h, Nat.sub_add_cancel h, rfl, (OnlyWrites.refl.setSp _).jump _⟩

end ControlFlowRules

/-- Settles O19: each jump writes its target to the pc, and neither target wraps. -/
theorem jumpsReachTheirTargets : Obligations.JumpsReachTheirTargets := fun nnn s =>
  ⟨decodeWord_encode (i := .jp nnn) rfl, decodeWord_encode (i := .jpV0 nnn) rfl,
    ⟨_, rfl, zext16_toNat nnn, OnlyWrites.refl.jump _⟩, ⟨_, rfl, jpV0_target_toNat nnn _, OnlyWrites.refl.jump _⟩⟩

/-- Settles O20: the four skips are one operation, each with its own test. -/
theorem comparisonSkipsPassTwoBytes : Obligations.ComparisonSkipsPassTwoBytes := fun x y nn _ =>
  ⟨decodeWord_encode (i := .seImm x nn) rfl, decodeWord_encode (i := .sneImm x nn) rfl,
    decodeWord_encode (i := .seReg x y) rfl, decodeWord_encode (i := .sneReg x y) rfl,
    skips_iff rfl beq_iff_eq, skips_iff rfl bne_iff_ne, skips_iff rfl beq_iff_eq, skips_iff rfl bne_iff_ne⟩

/-- Settles O21: the slots of the pushed stack, and the row of CALL in the fault table. -/
theorem callPushesReturnAddress : Obligations.CallPushesReturnAddress := by
  refine fun nnn s => ⟨decodeWord_encode (i := .call nnn) rfl, fun hsp => ?_, fun hfull => ?_⟩
  · obtain ⟨t, ht, hstack, hsp', hpc, hframe⟩ := exec_call_pushes (nnn := nnn) hsp
    refine ⟨t, ht, ?_, fun k hk => ?_, hsp', ?_, hframe⟩
    · rw [hstack, Vector.getElem_set_self]
    · rw [hstack, Vector.getElem_set_ne _ _ hk.symm]
    · rw [hpc, zext16_toNat]
  · exact exec_of_faultOf (.call nnn) (if_pos hfull)

/-- Settles O22: a pop reads the slot at the new SP, and the row of RET in the fault table. -/
theorem retPopsReturnAddress : Obligations.RetPopsReturnAddress := fun _ =>
  ⟨decodeWord_encode (i := .ret) rfl, exec_ret_pops, fun hempty => exec_of_faultOf .ret (if_pos hempty)⟩

/-- Settles O23: RET pops the slot that CALL pushed, since the slot below the raised SP is the one at the old SP. -/
theorem callThenRetReturns : Obligations.CallThenRetReturns := by
  intro nnn s hsp
  obtain ⟨t, ht, hstack, hraised, -, -⟩ := exec_call_pushes (nnn := nnn) hsp
  refine ⟨t, ht, fun t' hstack' hsp' => ?_⟩
  have htop : t'.sp.val = s.sp.val + 1 := (congrArg Fin.val hsp').trans hraised
  obtain ⟨u, hu, hlowered, hpc, hframe⟩ := exec_ret_pops (s := t') (by omega)
  refine ⟨u, hu, ?_, Fin.ext (by omega), hframe⟩
  simp only [hpc, hstack', hstack, htop, Nat.add_sub_cancel, Vector.getElem_set_self]

end Sys2Proof.Machine

/-! SUPPORT. The instructions of 41_alu.md as their rules say them: what the shared orders of writes and reads leave in
the destination, in the source of a shift and in VF, also where a register of the instruction is VF (R58 to R70). -/

namespace Sys2Proof.Machine

section ByteArithmetic
variable (a b : Byte)

/-- A byte difference, with 256 lent to the minuend so that no subtraction of numbers is cut off (R66, R68). -/
theorem byte_sub_toNat : (a - b).toNat = (a.toNat + 256 - b.toNat) % 256 := by
  bv_omega

theorem byte_shiftRight_one_toNat : (b >>> 1).toNat = b.toNat / 2 := by
  rw [BitVec.toNat_ushiftRight, Nat.shiftRight_eq_div_pow, pow_one]

theorem byte_shiftLeft_one_toNat : (b <<< 1).toNat = b.toNat * 2 % 256 := by
  rw [BitVec.toNat_shiftLeft, Nat.shiftLeft_eq, pow_one]

theorem lowBit_toNat : (lowBit b).toNat = b.toNat % 2 := by
  rw [lowBit, BitVec.toNat_and]; exact Nat.and_one_is_mod _

theorem highBit_toNat : (highBit b).toNat = b.toNat / 128 := by
  rw [highBit, BitVec.toNat_ushiftRight, Nat.shiftRight_eq_div_pow]

/-- The bit that SHR of VF shifts out is shifted out of VF again (R67). -/
theorem lowBit_shiftRight_one : lowBit b >>> 1 = 0 := by
  apply BitVec.eq_of_toNat_eq
  rw [byte_shiftRight_one_toNat, lowBit_toNat]
  exact Nat.div_eq_of_lt (Nat.mod_lt _ (by decide))

/-- The bit that SHL of VF shifts out is moved to bit 1 of VF (R69). -/
theorem highBit_shiftLeft_one_toNat : (highBit b <<< 1).toNat = b.toNat / 128 * 2 := by
  rw [byte_shiftLeft_one_toNat, highBit_toNat]; omega

end ByteArithmetic

section FlagOrder
variable (s : State) (x p q y r : RegIx) (c : Bool) (b f₀ f₁ : Byte)

@[simp] theorem reg_setFlagIf : (s.setFlagIf c b).reg r = if r = vF ∧ c = true then b else s.reg r := by
  rw [State.setFlagIf, reg_setReg]
  by_cases hr : r = vF <;> simp [hr]

/-- Where the destination is not VF, VF keeps the flag written before the result (R65, R66, R68). -/
theorem reg_vF_of_flagged (hx : x ≠ vF) :
    (((s.setReg vF f₀).setFlagIf c f₁).setReg x b).reg vF = if c then f₁ else f₀ := by
  simp [hx.symm]

/-- What ADD leaves, in the operands as they stand after VF is cleared (R65). -/
theorem exec_addReg_adds : ∃ t, exec (.addReg x y) s = .next t ∧ OnlyWrites [.reg x, .reg vF] s t ∧
    t.reg x = (s.setReg vF 0).reg x + (s.setReg vF 0).reg y ∧
    (x ≠ vF → t.reg vF = if ((s.setReg vF 0).reg x).toNat + ((s.setReg vF 0).reg y).toNat > 255 then 1 else 0) := by
  obtain ⟨t, ht, hframe⟩ := exec_onlyWrites (.addReg x y) s rfl
  refine ⟨t, ht, hframe, ?_, fun hx => ?_⟩ <;> cases ht
  · exact (reg_setReg _ _ _ _).trans (if_pos rfl)
  · exact (reg_vF_of_flagged s x _ _ _ _ hx).trans (if_congr (carry_iff _ _) rfl rfl)

/-- The difference of the operands as they stand after VF is set (R66, R68). -/
theorem reg_subtractInto_self : (s.subtractInto x p q).reg x = (s.setReg vF 1).reg p - (s.setReg vF 1).reg q :=
  (reg_setReg _ _ _ _).trans (if_pos rfl)

/-- The same difference as a number. -/
theorem reg_subtractInto_self_toNat : ((s.subtractInto x p q).reg x).toNat =
    (((s.setReg vF 1).reg p).toNat + 256 - ((s.setReg vF 1).reg q).toNat) % 256 := by
  rw [reg_subtractInto_self, byte_sub_toNat]

/-- NOT borrow of the same operands (R66, R68). -/
theorem reg_subtractInto_vF (hx : x ≠ vF) : (s.subtractInto x p q).reg vF =
    if ((s.setReg vF 1).reg p).toNat < ((s.setReg vF 1).reg q).toNat then 0 else 1 :=
  (reg_vF_of_flagged s x _ _ _ _ hx).trans (if_congr (borrow_iff _ _) rfl rfl)

end FlagOrder

section ShiftOrder
variable (s : State) (x y source : RegIx) (out shifted : Byte → Byte)

/-- A shift leaves one value in its destination and its source (R67, R69). -/
theorem reg_shiftInto_self :
    (s.shiftInto x source out shifted).reg x = (s.shiftInto x source out shifted).reg source := by
  simp [State.shiftInto]

/-- A source other than VF is shifted as it was. -/
theorem reg_shiftInto_source (hsrc : source ≠ vF) :
    (s.shiftInto x source out shifted).reg source = shifted (s.reg source) := by
  simp [State.shiftInto, hsrc]

/-- A source that is VF is shifted as the write of the bit shifted out has left it. -/
theorem reg_shiftInto_vF_source : (s.shiftInto x vF out shifted).reg vF = shifted (out (s.reg vF)) := by
  simp [State.shiftInto]

/-- Where neither register is VF, VF keeps the bit shifted out. -/
theorem reg_shiftInto_vF (hx : x ≠ vF) (hsrc : source ≠ vF) :
    (s.shiftInto x source out shifted).reg vF = out (s.reg source) := by
  simp [State.shiftInto, hx.symm, hsrc.symm]

variable {s x y out shifted} {i : Instr}
  (hexec : exec i s = .next (s.shiftInto x (s.shiftSource x y) out shifted))
include hexec

/-- With `SHIFT_QUIRK` a shift works on Vx alone (R19). -/
theorem shifts_vx_of_quirk (hq : s.shiftQuirk = true) :
    ∃ t, exec i s = .next t ∧ OnlyWrites [.reg x, .reg vF] s t ∧
      (x ≠ vF → t.reg x = shifted (s.reg x) ∧ t.reg vF = out (s.reg x)) ∧
      (x = vF → t.reg vF = shifted (out (s.reg vF))) := by
  rw [State.shiftSource, if_pos hq] at hexec
  refine ⟨_, hexec, OnlyWrites.refl.shiftInto x x _ _ (by simp) (by simp) (by simp), fun hx => ?_, ?_⟩
  · exact ⟨reg_shiftInto_source s x x _ _ hx, reg_shiftInto_vF s x x _ _ hx hx⟩
  · rintro rfl
    exact reg_shiftInto_vF_source s vF _ _

/-- Without `SHIFT_QUIRK` a shift works on Vy and leaves its value in Vx too (R19). -/
theorem shifts_vy_of_no_quirk (hq : s.shiftQuirk = false) :
    ∃ t, exec i s = .next t ∧ OnlyWrites [.reg x, .reg y, .reg vF] s t ∧ t.reg x = t.reg y ∧
      (y ≠ vF → t.reg y = shifted (s.reg y)) ∧ (y = vF → t.reg vF = shifted (out (s.reg vF))) ∧
      (x ≠ vF → y ≠ vF → t.reg vF = out (s.reg y)) := by
  rw [State.shiftSource, if_neg (by simp [hq])] at hexec
  refine ⟨_, hexec, OnlyWrites.refl.shiftInto x y _ _ (by simp) (by simp) (by simp), reg_shiftInto_self s x y _ _,
    reg_shiftInto_source s x y _ _, ?_, reg_shiftInto_vF s x y _ _⟩
  rintro rfl
  exact reg_shiftInto_vF_source s x _ _

end ShiftOrder

section RandomByte
variable {ps : List Piece} {s t : State} {x : RegIx} {nn : Byte}

/-- The byte at the RANDOM input is part of the free draw (log entry 3). -/
theorem OnlyWrites.setRandom (h : OnlyWrites ps s t) (r : Byte) (hd : Piece.freeDraw ∈ ps := by simp [writes]) :
    OnlyWrites ps s { t with random := r } :=
  { h with freeDraw := fun hn => absurd hd hn }

theorem exec_rnd : exec (.rnd x nn) s = .next (s.setReg x (s.random &&& nn)).nextDraw := rfl

/-- The step of a running core at a Cxnn, with the byte r presented (R70, R96). -/
theorem step_of_rnd (r : Byte) (hrun : s.fault = none) (hw : s.fetchWord = some (encode (.rnd x nn))) :
    step { s with random := r } =
      .next ((State.beginExecute { s with random := r }).setReg x (r &&& nn)).nextDraw :=
  (step_of_decoded (s := { s with random := r }) hrun hw (decodeWord_encode rfl)).trans exec_rnd

end RandomByte

/-- Settles O26: VF is cleared before the operands are read, so VF as an operand counts 0. -/
theorem addSetsCarry : Obligations.AddSetsCarry := by
  refine fun x y s => ⟨decodeWord_encode (i := .addReg x y) rfl, ?_⟩
  obtain ⟨t, ht, hframe, hsum, hcarry⟩ := exec_addReg_adds s x y
  refine ⟨t, ht, hframe, fun hx hy => ?_, ?_, ?_, ?_⟩
  · simp [hsum, hcarry hx, hx, hy]
  · rintro rfl hy
    simp [hsum, hy]
  · rintro hx rfl
    have hle : (s.reg x).toNat ≤ 255 := Nat.le_of_lt_succ (s.reg x).isLt
    simp [hsum, hcarry hx, hx, hle]
  · rintro rfl rfl
    simp [hsum]

/-- Settles O27: VF is set before the operands are read, so VF as an operand counts 1. -/
theorem subSetsNotBorrow : Obligations.SubSetsNotBorrow := by
  refine fun x y s => ⟨decodeWord_encode (i := .subReg x y) rfl, _, rfl, OnlyWrites.refl.subtractInto x x y,
    fun hx hy => ?_, ?_, ?_, ?_⟩
  · simp [reg_subtractInto_self_toNat, reg_subtractInto_vF, hx, hy]
  · rintro rfl hy
    simp [reg_subtractInto_self_toNat, hy]
  · rintro hx rfl
    refine ⟨fun hzero => ?_, fun hne => ?_⟩
    · simp [reg_subtractInto_self, reg_subtractInto_vF, hx, hzero]
    · have hdiff : ((s.subtractInto x x vF).reg x).toNat = ((s.reg x).toNat + 255) % 256 := by
        simp [reg_subtractInto_self_toNat, hx]
      have hpos : 0 < (s.reg x).toNat := Nat.pos_of_ne_zero (BitVec.toNat_ne.1 hne)
      refine ⟨by simp [reg_subtractInto_vF, hx, hpos.ne'], by omega⟩
  · rintro rfl rfl
    simp [reg_subtractInto_self]

/-- Settles O28: SUB's order with the operands exchanged. -/
theorem subnSetsNotBorrow : Obligations.SubnSetsNotBorrow := by
  refine fun x y s => ⟨decodeWord_encode (i := .subnReg x y) rfl, _, rfl, OnlyWrites.refl.subtractInto x y x,
    fun hx hy => ?_, ?_, ?_, ?_⟩
  · simp [reg_subtractInto_self_toNat, reg_subtractInto_vF, hx, hy]
  · rintro rfl hy
    simp [reg_subtractInto_self_toNat, hy]
  · rintro hx rfl
    simp [reg_subtractInto_self_toNat, reg_subtractInto_vF, hx, Nat.succ_le_iff]
  · rintro rfl rfl
    simp [reg_subtractInto_self]

/-- Settles O29: a source that is VF holds the bit shifted out, which SHR then shifts out of VF. -/
theorem shiftRightFollowsQuirk : Obligations.ShiftRightFollowsQuirk := by
  refine fun x y s => ⟨decodeWord_encode (i := .shrReg x y) rfl, fun hq => ?_, fun hq => ?_⟩
  · obtain ⟨t, ht, hframe, hvx, hvF⟩ := shifts_vx_of_quirk (i := .shrReg x y) rfl hq
    refine ⟨t, ht, hframe, fun hx => ?_, fun hx => ?_⟩
    · obtain ⟨hres, hout⟩ := hvx hx
      rw [hres, hout]
      exact ⟨byte_shiftRight_one_toNat _, lowBit_toNat _⟩
    · rw [hvF hx, lowBit_shiftRight_one]
  · obtain ⟨t, ht, hframe, hcopy, hvy, hvF, hout⟩ := shifts_vy_of_no_quirk (i := .shrReg x y) rfl hq
    have hhalf (hy : y ≠ vF) : (t.reg y).toNat = (s.reg y).toNat / 2 := by
      rw [hvy hy, byte_shiftRight_one_toNat]
    have hlost (hy : y = vF) : t.reg vF = 0 := by
      rw [hvF hy, lowBit_shiftRight_one]
    refine ⟨t, ht, hframe, fun hx hy => ⟨hhalf hy, hcopy, ?_⟩, fun hx hy => ⟨hlost hy, ?_⟩,
      fun hx hy => ⟨hhalf hy, hx ▸ hcopy⟩, fun _ => hlost⟩
    · rw [hout hx hy, lowBit_toNat]
    · rw [hcopy, hy, hlost hy]

/-- Settles O30: a source that is VF holds the bit shifted out, which SHL then moves to bit 1 of VF. -/
theorem shiftLeftFollowsQuirk : Obligations.ShiftLeftFollowsQuirk := by
  refine fun x y s => ⟨decodeWord_encode (i := .shlReg x y) rfl, fun hq => ?_, fun hq => ?_⟩
  · obtain ⟨t, ht, hframe, hvx, hvF⟩ := shifts_vx_of_quirk (i := .shlReg x y) rfl hq
    refine ⟨t, ht, hframe, fun hx => ?_, fun hx => ?_⟩
    · obtain ⟨hres, hout⟩ := hvx hx
      rw [hres, hout]
      exact ⟨byte_shiftLeft_one_toNat _, highBit_toNat _⟩
    · rw [hvF hx, highBit_shiftLeft_one_toNat]
  · obtain ⟨t, ht, hframe, hcopy, hvy, hvF, hout⟩ := shifts_vy_of_no_quirk (i := .shlReg x y) rfl hq
    have hdouble (hy : y ≠ vF) : (t.reg y).toNat = (s.reg y).toNat * 2 % 256 := by
      rw [hvy hy, byte_shiftLeft_one_toNat]
    have hmoved (hy : y = vF) : (t.reg vF).toNat = (s.reg vF).toNat / 128 * 2 := by
      rw [hvF hy, highBit_shiftLeft_one_toNat]
    refine ⟨t, ht, hframe, fun hx hy => ⟨hdouble hy, hcopy, ?_⟩, fun hx hy => ⟨hmoved hy, hy ▸ hcopy⟩,
      fun hx hy => ⟨hdouble hy, hx ▸ hcopy⟩, fun _ => hmoved⟩
    rw [hout hx hy, highBit_toNat]

/-- Settles O24: each writes one value to Vx. -/
theorem loadsAndAddImmediate : Obligations.LoadsAndAddImmediate := fun x y nn s =>
  ⟨decodeWord_encode (i := .ldImm x nn) rfl, decodeWord_encode (i := .addImm x nn) rfl,
    decodeWord_encode (i := .ldReg x y) rfl,
    ⟨_, rfl, by simp, OnlyWrites.refl.setReg x _⟩, ⟨_, rfl, by simp, OnlyWrites.refl.setReg x _⟩,
    ⟨_, rfl, by simp, OnlyWrites.refl.setReg x _⟩⟩

/-- Settles O25: each writes the bitwise combination of the two registers to Vx. -/
theorem bitwiseOperations : Obligations.BitwiseOperations := fun x y s =>
  ⟨decodeWord_encode (i := .orReg x y) rfl, decodeWord_encode (i := .andReg x y) rfl,
    decodeWord_encode (i := .xorReg x y) rfl,
    ⟨_, rfl, OnlyWrites.refl.setReg x _, by simp⟩, ⟨_, rfl, OnlyWrites.refl.setReg x _, by simp⟩,
    ⟨_, rfl, OnlyWrites.refl.setReg x _, by simp⟩⟩

/-- Settles O31: the draw that follows is `Config.randomByte` of a counter that r does not touch, and the transaction is
the step with r presented. -/
theorem randomByteIsMasked : Obligations.RandomByteIsMasked := by
  refine fun x nn s => ⟨decodeWord_encode (i := .rnd x nn) rfl, fun r => ?_, fun r r' t t' ht ht' => ?_,
    fun hrun hw r => ?_⟩
  · exact ⟨_, exec_rnd, by simp, (OnlyWrites.refl.setReg x _).nextDraw⟩
  · cases ht
    cases ht'
    rfl
  · refine ⟨_, transact_step_of_next hrun (step_of_rnd r hrun hw), by simp, rfl, rfl, hrun, ?_⟩
    exact ((OnlyWrites.refl.setRandom r).beginExecute.setReg x _).nextDraw

end Sys2Proof.Machine

/-! SUPPORT. The instructions of 42_index_memory.md as their rules say them: the values that I takes, and what a block
stored at I reads as and leaves (R71 to R76). -/

namespace Sys2Proof.Machine

section AddressArithmetic
variable (a : Word) (b : Byte)

theorem add_byteAsWord_toNat : (a + byteAsWord b).toNat = (a.toNat + b.toNat) % 65536 := by
  unfold byteAsWord; bv_omega

/-- The address of a digit's sprite is at most 1275, so the product does not wrap (R73). -/
theorem byteAsWord_mul_five_toNat : (byteAsWord b * 5).toNat = b.toNat * 5 := by
  unfold byteAsWord; bv_omega

end AddressArithmetic

/-- The byte's digits are stored without loss: each is far below 256 (R74). -/
theorem bcdDigits_getElem_toNat (b : Byte) : (bcdDigits b)[0].toNat = b.toNat / 100 ∧
    (bcdDigits b)[1].toNat = b.toNat / 10 % 10 ∧ (bcdDigits b)[2].toNat = b.toNat % 10 := by
  have hb := b.isLt
  refine ⟨Nat.mod_eq_of_lt ?_, Nat.mod_eq_of_lt ?_, Nat.mod_eq_of_lt ?_⟩ <;> omega

section BlockAccess
variable {s : State} {x : RegIx}

/-- Fx33 on a block inside memory (R74). -/
theorem exec_ldBVx_of_inRange (h : s.i.toNat + 2 ≤ 0xFFF) :
    exec (.ldBVx x) s = .next (s.writeBytes (s.blockAddr 0) (bcdDigits (s.reg x))) :=
  if_pos (blockInRange_of_faultOf_ldBVx (x := x) (if_neg h.not_gt))

/-- Fx65 on a block inside memory: the load, then the advance of I (R76). -/
theorem exec_ldVxMem_of_inRange (h : s.i.toNat + x.val ≤ 0xFFF) :
    exec (.ldVxMem x) s = .next ((s.loadRegsUpTo x).advanceI x) :=
  if_pos (blockInRange_of_faultOf_ldMemVx (if_neg h.not_gt))

/-- I advances past a block inside memory to 0x1000 at most, so it does not wrap (R20, log entry 17). -/
theorem advanceI_i_toNat (h : s.i.toNat + x.val ≤ 0xFFF) :
    (s.advanceI x).i.toNat = if s.loadStoreQuirk then s.i.toNat else s.i.toNat + x.val + 1 := by
  have hsum : (s.i + BitVec.ofNat 16 (x.val + 1)).toNat = s.i.toNat + x.val + 1 := by
    rw [BitVec.toNat_add, BitVec.toNat_ofNat]; omega
  rw [advanceI_i, apply_ite BitVec.toNat, hsum]

end BlockAccess

/-- Settles O34: the three stored bytes are the digits, and the row of Fx33 in the fault table. -/
theorem decimalDigitsAreStored : Obligations.DecimalDigitsAreStored := by
  refine fun x s => ⟨decodeWord_encode (i := .ldBVx x) rfl, fun hin => ?_,
    fun hout => exec_of_faultOf (.ldBVx x) (if_pos hout)⟩
  obtain ⟨hhundreds, htens, hones⟩ := bcdDigits_getElem_toNat (s.reg x)
  have hstored := readByte_writeBytes_inside s (s.blockAddr 0) (bcdDigits (s.reg x))
  refine ⟨_, exec_ldBVx_of_inRange hin, ?_, ?_, ?_, fun a ha => ?_, OnlyWrites.refl.writeBytes _ _ (by simp)⟩
  · exact (congrArg BitVec.toNat (hstored 0 (by simp))).trans hhundreds
  · exact (congrArg BitVec.toNat (hstored 1 (by simp))).trans htens
  · exact (congrArg BitVec.toNat (hstored 2 (by simp))).trans hones
  · exact readByte_writeBytes_outside s _ _ a (by simp only [blockAddr_eq, bcdDigits_length] at ha ⊢; omega)

/-- Settles O35: a stored register is read back at its place, and the row of Fx55 in the fault table. -/
theorem registersAreStored : Obligations.RegistersAreStored := by
  refine fun x s => ⟨decodeWord_encode (i := .ldMemVx x) rfl, fun hin => ?_,
    fun hout => exec_of_faultOf (.ldMemVx x) (if_pos hout)⟩
  refine ⟨_, exec_ldMemVx_of_inRange hin, fun k => readByte_storedRegs, fun a ha => ?_, advanceI_i_toNat hin,
    (OnlyWrites.refl.writeBytes _ _ (by simp)).advanceI x (by simp)⟩
  exact readByte_writeBytes_outside s _ _ a (by simp only [blockAddr_eq, regsUpTo_length] at ha ⊢; omega)

/-- Settles O36: the advance of I leaves the loaded registers, and the row of Fx65 in the fault table. -/
theorem registersAreLoaded : Obligations.RegistersAreLoaded := by
  refine fun x s => ⟨decodeWord_encode (i := .ldVxMem x) rfl, fun hin => ?_,
    fun hout => exec_of_faultOf (.ldVxMem x) (if_pos hout)⟩
  refine ⟨_, exec_ldVxMem_of_inRange hin, fun k => ?_, ?_, ?_⟩
  · rw [reg_advanceI, reg_loadRegsUpTo]
  · rw [advanceI_i_toNat (by rwa [loadRegsUpTo_i]), loadRegsUpTo_i, loadRegsUpTo_loadStoreQuirk]
  · exact (OnlyWrites.refl.loadRegsUpTo x (by simp)).advanceI x (by simp)

/-- Settles O37: the load reads the block that the store wrote, at the same addresses. -/
theorem storeThenLoadRoundTrips : Obligations.StoreThenLoadRoundTrips := by
  refine fun x s hin => ⟨_, exec_ldMemVx_of_inRange hin, fun t' hi hmem => ?_⟩
  refine ⟨_, exec_ldVxMem_of_inRange (hi ▸ hin), fun k hk => ?_⟩
  rw [reg_advanceI, reg_loadRegsUpTo, if_pos hk, hmem, blockAddr_eq t', hi]
  exact readByte_storedRegs hk

/-- Settles O32: each writes its value to I. -/
theorem addressRegisterLoads : Obligations.AddressRegisterLoads := fun nnn x _ =>
  ⟨decodeWord_encode (i := .ldI nnn) rfl, decodeWord_encode (i := .ldFVx x) rfl,
    ⟨_, rfl, zext16_toNat nnn, OnlyWrites.refl.setI _⟩, ⟨_, rfl, byteAsWord_mul_five_toNat _, OnlyWrites.refl.setI _⟩⟩

/-- Settles O33: the sum of two words is their sum modulo 65536. -/
theorem addToAddressRegisterWraps : Obligations.AddToAddressRegisterWraps := fun x _ =>
  ⟨decodeWord_encode (i := .addIVx x) rfl, _, rfl, add_byteAsWord_toNat _ _, OnlyWrites.refl.setI _⟩

end Sys2Proof.Machine

/-! SUPPORT. The sprite draw of 43_display.md as its rule says it: the cells that Dxyn's sprite touches are those that the
draw toggles, and VF tells whether one of them was 1 (R77 to R80). -/

namespace Sys2Proof.Machine

/-- A sprite's pixel, as the digit of the byte that R78 names. -/
theorem spriteBit_iff (b : Byte) (col : Nat) : spriteBit b col = true ↔ b.toNat / 2 ^ (7 - col) % 2 = 1 := by
  rw [spriteBit, beq_iff_eq, ← BitVec.toNat_inj, BitVec.toNat_and, BitVec.toNat_ushiftRight,
    Nat.shiftRight_eq_div_pow]
  exact iff_of_eq (congrArg (· = 1) (Nat.and_one_is_mod _))

/-- An exclusive or differs from its first operand exactly where its second is true. -/
theorem ne_iff_of_eq_xor {a b c : Bool} (h : a = (b ^^ c)) : a ≠ b ↔ c = true := by
  cases c <;> simp [h]

section Sprite
variable {s t : State} {x y : RegIx} {n : Nibble} {c : Nat}

/-- The cells that the draw's own recursion meets are those that R80's index formula names. -/
theorem spriteHits_iff_spriteTouches :
    spriteHits (s.reg x) (s.reg y) 0 (s.readBytes (s.blockAddr 0) n.toNat) c = true ↔ SpriteTouches s x y n c := by
  simp only [spriteHits_iff, readBytes_length, readBytes_getElem, spriteBit_iff, exists_prop, SpriteTouches, pixelIndex,
    blockAddr_eq, Nat.add_zero, Nat.zero_add]

/-- The index is taken modulo 2048 (R80, D23). -/
theorem SpriteTouches.lt (h : SpriteTouches s x y n c) : c < 2048 := by
  obtain ⟨row, -, col, -, -, rfl⟩ := h
  exact Nat.mod_lt _ (by decide)

/-- A sprite touches the same cells in two states with the same position, I and memory. -/
theorem spriteTouches_congr (hx : t.reg x = s.reg x) (hy : t.reg y = s.reg y) (hi : t.i = s.i)
    (hmem : ∀ a, t.readByte a = s.readByte a) : SpriteTouches t x y n c ↔ SpriteTouches s x y n c := by
  simp only [SpriteTouches, blockAddr_eq, hx, hy, hi, hmem]

/-- A draw whose position is not held in VF leaves what its sprite touches. -/
theorem spriteTouches_of_onlyWrites (hx : x ≠ vF) (hy : y ≠ vF) (h : OnlyWrites [.reg vF, .fb, .draw] s t) :
    SpriteTouches t x y n c ↔ SpriteTouches s x y n c :=
  spriteTouches_congr (h.reg x (by simp [hx])) (h.reg y (by simp [hy])) (h.i (by simp)) (h.mem (by simp))

/-- Dxyn on a sprite inside memory, or on none: exactly the touched cells change, VF is the collision, and the draw
signal is set (R80). -/
theorem exec_drw_draws (h : n.toNat = 0 ∨ s.i.toNat + n.toNat - 1 ≤ 0xFFF) : ∃ t, exec (.drw x y n) s = .next t ∧
    (∀ c, t.cell c ≠ s.cell c ↔ SpriteTouches s x y n c) ∧
    ((∃ c, SpriteTouches s x y n c ∧ s.cell c = true) → t.reg vF = 1) ∧
    ((∀ c, SpriteTouches s x y n c → s.cell c = false) → t.reg vF = 0) ∧
    t.draw = true ∧ OnlyWrites [.reg vF, .fb, .draw] s t := by
  have hin : blockInRange (s.blockAddr 0) n.toNat = true := by
    rw [blockInRange_iff, blockAddr_eq]; omega
  obtain ⟨hcell, hcollision⟩ := drawRows_spec (px := s.reg x) (py := s.reg y) 0
    (s.readBytes (s.blockAddr 0) n.toNat) (by rw [readBytes_length]; omega) (s.fb, false)
  simp only [spriteHits_iff_spriteTouches, Bool.false_eq_true, false_or] at hcollision
  have hvF (b : Byte) : (s.setReg vF b).reg vF = b := by rw [reg_setReg, if_pos rfl]
  refine ⟨_, if_pos hin, fun c => ?_, fun hset => ?_, fun hclear => ?_, rfl,
    (OnlyWrites.refl.setReg vF _).setScreen _ _⟩
  · rw [← spriteHits_iff_spriteTouches]
    exact ne_iff_of_eq_xor (hcell c)
  · exact (hvF _).trans (congrArg flag (hcollision.2 hset))
  · refine (hvF _).trans (congrArg flag (Bool.eq_false_iff.2 fun hc => ?_))
    obtain ⟨c, htouch, hset⟩ := hcollision.1 hc
    exact Bool.false_ne_true ((hclear c htouch).symm.trans hset)

end Sprite

/-- Settles O40: the draw changes the touched cells, each below 2048, and the row of DRW in the fault table. -/
theorem drawTogglesTouchedCells : Obligations.DrawTogglesTouchedCells := by
  refine fun x y n s => ⟨decodeWord_encode (i := .drw x y n) rfl, fun hin => ?_,
    fun hn hout => exec_of_faultOf (.drw x y n) (if_pos ⟨Nat.pos_of_ne_zero hn, hout⟩)⟩
  obtain ⟨t, ht, hcells, hset, hclear, hdraw, hframe⟩ := exec_drw_draws (x := x) (y := y) hin
  exact ⟨t, ht, fun c _ => hcells c, fun ⟨c, _, hc⟩ => hset ⟨c, hc⟩,
    fun hall => hclear fun c hc => hall c hc.lt hc, hdraw, hframe⟩

/-- Settles O41: both draws change the same cells, so each is changed twice or never; a touched cell that was 0 is 1 when
the second draw meets it. -/
theorem drawingTwiceRestores : Obligations.DrawingTwiceRestores := by
  intro x y n s hx hy hin
  obtain ⟨t, ht, hfirst, -, -, -, hframe⟩ := exec_drw_draws (x := x) (y := y) hin
  have hi : t.i = s.i := hframe.i (by simp)
  obtain ⟨u, hu, hsecond, hset, -⟩ := exec_drw_draws (s := t) (x := x) (y := y) (n := n) (hi ▸ hin)
  simp only [spriteTouches_of_onlyWrites hx hy hframe] at hsecond hset
  refine ⟨t, u, ht, hu, framebuffer_ext fun c _ => ?_, fun ⟨c, htouch, hclear⟩ => hset ⟨c, htouch, ?_⟩⟩
  · change u.cell c = s.cell c
    by_cases htouch : SpriteTouches s x y n c
    · rw [Bool.eq_not.2 ((hsecond c).2 htouch), Bool.eq_not.2 ((hfirst c).2 htouch), Bool.not_not]
    · exact (not_not.1 (mt (hsecond c).1 htouch)).trans (not_not.1 (mt (hfirst c).1 htouch))
  · have hchanged := (hfirst c).2 htouch
    rwa [hclear, ne_eq, Bool.not_eq_false] at hchanged

/-- Refutes O42: where the display is all ones, the first draw of one set pixel turns its cell off, and the second meets no
set cell. -/
theorem not_secondDrawAlwaysCollides : ¬ Obligations.SecondDrawAlwaysCollides := by
  intro h
  let s : State := { State.new false false (Vector.replicate 80 0x80) with fb := Vector.replicate 32 (BitVec.allOnes 64) }
  have htouch : SpriteTouches s 0 1 1 0 := ⟨0, by decide, 0, by decide, by decide, by decide⟩
  have hcollides := h 0 1 1 s _ _ (by decide) (by decide) ⟨0, htouch⟩ rfl rfl rfl
  exact absurd hcollides (by decide)

/-- Settles O39: the blank framebuffer, whatever was there before. -/
theorem clearBlanksTheDisplay : Obligations.ClearBlanksTheDisplay := fun _ =>
  ⟨decodeWord_encode (i := .cls) rfl, _, rfl, cell_blank, rfl, OnlyWrites.refl.setScreen _ _⟩

end Sys2Proof.Machine

/-! SUPPORT. The instructions of 44_keypad_timers.md as their rules say them: the skips on a key's level, the key that
Fx0A takes, and the sound output (R81 to R86). -/

namespace Sys2Proof.Machine

section KeypadRules
variable {s : State} {x : RegIx} {k : Fin 16}

/-- With Vx a key's number, the level that the skips test is that key's (R81, R82). -/
theorem keyPressed_reg (h : (s.reg x).toNat = k.val) : s.keyPressed (s.reg x).toNat = s.key[k.val] :=
  (congrArg s.keyPressed h).trans (keyPressed_eq s k)

theorem exec_skp_of_key (h : (s.reg x).toNat = k.val) : exec (.skp x) s = .next (s.skipIf s.key[k.val]) :=
  (if_neg (by omega)).trans (by rw [keyPressed_reg h, done_eq])

theorem exec_sknp_of_key (h : (s.reg x).toNat = k.val) : exec (.sknp x) s = .next (s.skipIf !s.key[k.val]) :=
  (if_neg (by omega)).trans (by rw [keyPressed_reg h, done_eq])

/-- A pressed key with none pressed below it is the first pressed (R84). -/
theorem firstPressed_of_lowest (hk : s.key[k.val] = true) (hlow : ∀ j : Fin 16, j < k → s.key[j.val] = false) :
    s.firstPressed = some k.val :=
  (firstPressed_eq_some_iff s k.val).2 ⟨k.isLt, (keyPressed_eq s k).trans hk, fun j hj =>
    (keyPressed_eq s ⟨j, hj.trans k.isLt⟩).trans (hlow ⟨j, hj.trans k.isLt⟩ hj)⟩

/-- The number that Fx0A stores is the key's: it is far below 256 (R84). -/
theorem reg_setReg_key_toNat : ((s.setReg x (BitVec.ofNat 8 k.val)).reg x).toNat = k.val := by
  rw [reg_setReg, if_pos rfl, BitVec.toNat_ofNat]
  omega

end KeypadRules

/-- The sound output is on exactly while ST is not 0 (R23). -/
theorem soundActive_iff (s : State) : s.soundActive = true ↔ s.st ≠ 0 := bne_iff_ne

/-- Settles O44: the lowest pressed key is the one that the search finds, and with no key the search finds none. -/
theorem keyWaitTakesLowestKey : Obligations.KeyWaitTakesLowestKey := by
  refine fun x s => ⟨decodeWord_encode (i := .ldVxK x) rfl, fun k hk hlow => ?_, fun hnone => ?_⟩
  · exact ⟨_, exec_ldVxK_of_pressed (firstPressed_of_lowest hk hlow), reg_setReg_key_toNat,
      OnlyWrites.refl.setReg x _⟩
  · exact ⟨_, exec_ldVxK_of_waiting (firstPressed_of_no_key hnone), rfl, OnlyWrites.refl.jump _⟩

/-- Settles O43: the two skips test the level of one key, and above 15 each has its row of the fault table. -/
theorem keySkipsTestTheLevel : Obligations.KeySkipsTestTheLevel := by
  refine fun x s => ⟨decodeWord_encode (i := .skp x) rfl, decodeWord_encode (i := .sknp x) rfl, fun k hk => ?_,
    fun habove => ?_⟩
  · exact ⟨skips_iff (exec_skp_of_key hk) Iff.rfl, skips_iff (exec_sknp_of_key hk) (Bool.not_eq_true' _).to_iff⟩
  · exact ⟨exec_of_faultOf (.skp x) (if_pos habove), exec_of_faultOf (.sknp x) (if_pos habove)⟩

/-- Settles O45: each writes its byte to one register or timer, and the sound output follows ST. -/
theorem timerMoves : Obligations.TimerMoves := fun x s =>
  ⟨decodeWord_encode (i := .ldVxDt x) rfl, decodeWord_encode (i := .ldDtVx x) rfl,
    decodeWord_encode (i := .ldStVx x) rfl,
    ⟨_, rfl, (reg_setReg s x x _).trans (if_pos rfl), OnlyWrites.refl.setReg x _⟩,
    ⟨_, rfl, rfl, OnlyWrites.refl.setDt _⟩, ⟨_, rfl, rfl, soundActive_iff _, OnlyWrites.refl.setSt _⟩⟩

end Sys2Proof.Machine

/-! SUPPORT. The faults and the host interface of 60_exceptions.md: the codes of the fault kinds, precise faults, what the
host's operations answer on a halted core, the ticks and the key events (R87 to R101, 70_reset_and_hazards.md R108). -/

namespace Sys2Proof.Machine

section FaultCodes

/-- The kinds of R87's table, in the order of their codes 1 to 8. -/
def tabledKinds : List FaultKind :=
  [.unknownOpcode, .unimplementedOpcode, .outOfBounds .programLoad, .outOfBounds .stackOverflow,
    .outOfBounds .stackUnderflow, .outOfBounds .memoryAccess, .outOfBounds .fetch, .outOfBounds .keyIndex]

/-- A kind's code is its place in the table, counted from 1. -/
theorem code_eq_place (k : FaultKind) : ∃ j, k.code = j + 1 ∧ tabledKinds[j]? = some k :=
  match k with
  | .unknownOpcode | .unimplementedOpcode | .outOfBounds .programLoad | .outOfBounds .stackOverflow
  | .outOfBounds .stackUnderflow | .outOfBounds .memoryAccess | .outOfBounds .fetch | .outOfBounds .keyIndex =>
    ⟨_, rfl, rfl⟩

theorem code_injective : Function.Injective FaultKind.code := by
  intro k k' hcode
  obtain ⟨j, hj, hk⟩ := code_eq_place k
  obtain ⟨j', hj', hk'⟩ := code_eq_place k'
  obtain rfl : j = j' := by omega
  exact Option.some.inj (hk.symm.trans hk')

theorem code_bounds (k : FaultKind) : 1 ≤ k.code ∧ k.code ≤ 8 := by
  obtain ⟨j, hj, hk⟩ := code_eq_place k
  have hlt : j < 8 := (List.getElem?_eq_some_iff.1 hk).1
  omega

end FaultCodes

/-- Settles O17: each code by the table, and no two kinds have one place in it. -/
theorem faultCodesNameTheirKinds : Obligations.FaultCodesNameTheirKinds :=
  ⟨rfl, rfl, rfl, rfl, rfl, rfl, rfl, rfl, fun _ _ hcode => code_injective hcode, code_bounds⟩

/-- Settles O16: the fault side of every instruction, arm by arm, is `exec_of_faultOf`. -/
theorem instructionFaultsAsTabled : Obligations.InstructionFaultsAsTabled :=
  fun i _ _ _ hfault => exec_of_faultOf i hfault

section HostLoad
variable {s : State} {bytes : List Byte}

theorem transact_loadProgram_of_halted (h : s.fault ≠ none) :
    transact (.loadProgram bytes) s = (.loadRefused, s) := by
  simp only [transact, loadProgram, if_pos (Option.isSome_iff_ne_none.2 h)]
  rfl

theorem transact_loadProgram_of_fits (hrun : s.fault = none) (hfits : 0x200 + bytes.length ≤ 0x1000) :
    transact (.loadProgram bytes) s = (.loadOk, s.writeBytes 0x200 bytes) := by
  have hload : loadProgram bytes s = .next (s.writeBytes 0x200 bytes) :=
    (if_neg (by simp [hrun])).trans (if_pos hfits)
  simp only [transact, hload, loadReply, stateAfter, writeBytes_fault, hrun]

theorem transact_loadProgram_of_too_long (hrun : s.fault = none) (hlong : ¬ 0x200 + bytes.length ≤ 0x1000) :
    transact (.loadProgram bytes) s = (.loadFault (programLoadFault s bytes.length),
      s.recordFault (programLoadFault s bytes.length)) := by
  have hload : loadProgram bytes s = .next (s.recordFault (programLoadFault s bytes.length)) :=
    (if_neg (by simp [hrun])).trans (if_neg hlong)
  simp only [transact, hload, loadReply, stateAfter, recordFault_fault]

end HostLoad

/-- Settles O15: a step that ends with a fault is not one that completes, since the frame of a completed step keeps the
fault status; a load that raises is the one whose image does not fit. -/
theorem faultsArePrecise : Obligations.FaultsArePrecise := by
  refine ⟨fun s t hrun ht hfault => ?_, fun s t bytes r hrun ht => ?_⟩
  · obtain ⟨k, w, info, hstep⟩ | ⟨_, _, t', -, -, -, hstep, -, hframe⟩ := step_cases hrun <;>
      cases ht.symm.trans hstep
    · exact ⟨rfl, _, rfl, rfl⟩
    · exact absurd (hframe.fault.trans hrun) hfault
  · by_cases hfits : 0x200 + bytes.length ≤ 0x1000
    · cases ht.symm.trans (transact_loadProgram_of_fits hrun hfits)
    · cases ht.symm.trans (transact_loadProgram_of_too_long hrun hfits)
      rfl

section HaltedCore
variable {s : State} {t : Transaction} {r : FaultRecord}

theorem transact_step_of_halted (h : s.fault ≠ none) (b : Byte) :
    transact (.step b) s = (.stepped s.draw s.fault, s) := by
  simp only [transact, stepWith_of_halted s h, stateAfter]

/-- The operations of R92 that go on with a fault recorded and do not report it: a tick, a key event, a read. -/
def IgnoresFault (t : Transaction) : Prop :=
  t ∈ [Transaction.tickTimers, .readFramebuffer, .readDraw, .readSound, .readDelayTimer] ∨
    ∃ k, t = .keyDown k ∨ t = .keyUp k

/-- Such an operation neither looks at the fault status nor writes it. -/
theorem transact_withFault (ht : IgnoresFault t) (s : State) (f : Option FaultRecord) :
    transact t { s with fault := f } = ((transact t s).1, { (transact t s).2 with fault := f }) := by
  simp only [IgnoresFault, List.mem_cons, List.not_mem_nil, or_false] at ht
  obtain (rfl | rfl | rfl | rfl | rfl) | ⟨k, rfl | rfl⟩ := ht <;> rfl

/-- On a halted core such an operation does what it does on the core without the fault, and the fault stays (R92). -/
theorem transact_of_halted (ht : IgnoresFault t) (h : s.fault = some r) : transact t s =
    ((transact t { s with fault := none }).1, { (transact t { s with fault := none }).2 with fault := some r }) := by
  rw [← transact_withFault ht, ← h]

/-- A recorded fault stays along every transaction but `new` (R92, R105). -/
theorem transact_keeps_fault (h : s.fault = some r) :
    (transact t s).2.fault = some r ∨ ∃ sq lq font, t = .new sq lq font ∧ (transact t s).2.fault = none := by
  have hhalt : s.fault ≠ none := by simp [h]
  match t with
  | .new sq lq font => exact .inr ⟨sq, lq, font, rfl, renew_fault s sq lq font⟩
  | .loadProgram bytes => rw [transact_loadProgram_of_halted hhalt]; exact .inl h
  | .step b => rw [transact_step_of_halted hhalt]; exact .inl h
  | .tickTimers | .keyDown _ | .keyUp _ | .readFramebuffer | .readDraw | .readSound | .readDelayTimer
  | .readFault => exact .inl h

end HaltedCore

/-- Settles O14: steps and loads stop at the halted check, and no other operation but `new` looks at the fault. -/
theorem haltedCoreOnlyNewRecovers : Obligations.HaltedCoreOnlyNewRecovers := by
  intro s r h
  have hhalt : s.fault ≠ none := by simp [h]
  refine ⟨step_of_halted s hhalt, fun b => ?_, fun _ => transact_loadProgram_of_halted hhalt,
    fun t ht => transact_of_halted ht h, ?_, fun t => transact_keeps_fault h⟩
  · rw [transact_step_of_halted hhalt, h]
  · rw [transact, h]

section Ticks

/-- One tick of a timer is a subtraction that stops at 0 (R98). -/
theorem tick_toNat (b : Byte) : (if b.toNat > 0 then b - 1 else b).toNat = b.toNat - 1 := by
  split <;> bv_omega

/-- n ticks are one subtraction of n from each timer, which stops at 0, and the frame of a tick (R98). -/
theorem runTransactions_ticks (n : Nat) (s : State) :
    let u := runTransactions (List.replicate n .tickTimers) s
    u.dt.toNat = s.dt.toNat - n ∧ u.st.toNat = s.st.toNat - n ∧ u = { s with dt := u.dt, st := u.st } := by
  induction n generalizing s with
  | zero => exact ⟨rfl, rfl, rfl⟩
  | succ n ih =>
    obtain ⟨hdt, hst, hrest⟩ := ih s.tickTimers
    rw [tickTimers_dt, tick_toNat, Nat.sub_sub, Nat.add_comm] at hdt
    rw [tickTimers_st, tick_toNat, Nat.sub_sub, Nat.add_comm] at hst
    exact ⟨hdt, hst, hrest⟩

theorem soundActive_iff_toNat (s : State) : s.soundActive = true ↔ s.st.toNat ≠ 0 :=
  (soundActive_iff s).trans (not_congr BitVec.toNat_inj.symm)

theorem readSound_iff (s : State) : (transact .readSound s).1 = .sound true ↔ s.st.toNat ≠ 0 :=
  (Reply.sound.injEq _ _).to_iff.trans (soundActive_iff_toNat s)

end Ticks

/-- Settles O46: the ticks by induction, and the sound is on while the ticks have not reached the old ST. -/
theorem ticksSaturateAtZero : Obligations.TicksSaturateAtZero := by
  intro n s
  obtain ⟨hdt, hst, hrest⟩ := runTransactions_ticks n s
  exact ⟨hdt, hst, hrest, (readSound_iff _).trans (by rw [hst, Nat.sub_ne_zero_iff_lt])⟩

/-- A key event writes one level: the key's own is the one set, and every other is as before (R100). -/
theorem key_set_apply (keys : Vector Bool 16) (k j : Fin 16) (b : Bool) :
    (keys.set k.val b)[j.val] = if j = k then b else keys[j.val] := by
  rw [Vector.getElem_set]
  exact if_congr (Fin.ext_iff.trans eq_comm).symm rfl rfl

/-- Settles O47: each event is one write to the keypad. -/
theorem keyEventsSetOneKey : Obligations.KeyEventsSetOneKey := fun k s =>
  ⟨fun j => key_set_apply s.key k j true, rfl, fun j => key_set_apply s.key k j false, rfl⟩

/-- Settles O49: every accessor answers from the state it leaves, and the sound is on exactly while ST is not 0. -/
theorem readsChangeNothing : Obligations.ReadsChangeNothing := fun s =>
  ⟨rfl, rfl, rfl, rfl, s.soundActive, rfl, soundActive_iff_toNat s⟩

end Sys2Proof.Machine

/-! SUPPORT. What a load leaves, what a run cannot change, and the idle end state (70_reset_and_hazards.md R105, R107,
R108, R114, R116). -/

namespace Sys2Proof.Machine

/-- Settles O48: the image is one store at 0x200 where it fits; the record of a longer one is `programLoadFault`. -/
theorem loadProgramCopiesTheImage : Obligations.LoadProgramCopiesTheImage := fun bytes s =>
  ⟨fun hrun hfits => ⟨_, transact_loadProgram_of_fits hrun hfits, readByte_writeBytes_inside s 0x200 bytes,
      readByte_writeBytes_outside s 0x200 bytes, rfl⟩,
    fun hrun hlong => transact_loadProgram_of_too_long hrun (Nat.not_le.2 hlong),
    transact_loadProgram_of_halted⟩

/-- `t` has the run's parameters that `new` latched into `s`: the two quirk bits and the font table (R105, R114). -/
structure SameLatches (s t : State) : Prop where
  shiftQuirk : t.shiftQuirk = s.shiftQuirk
  loadStoreQuirk : t.loadStoreQuirk = s.loadStoreQuirk
  font : t.font = s.font

section Latches
variable {s t u : State} {ps : List Piece}

theorem SameLatches.refl : SameLatches s s := ⟨rfl, rfl, rfl⟩

theorem SameLatches.trans (h : SameLatches s t) (h' : SameLatches t u) : SameLatches s u :=
  ⟨h'.shiftQuirk.trans h.shiftQuirk, h'.loadStoreQuirk.trans h.loadStoreQuirk, h'.font.trans h.font⟩

/-- No piece that an instruction may write is a latch. -/
theorem OnlyWrites.sameLatches (h : OnlyWrites ps s t) : SameLatches s t :=
  ⟨h.quirks.1, h.quirks.2, h.font⟩

theorem beginExecute_sameLatches (s : State) : SameLatches s s.beginExecute := ⟨rfl, rfl, rfl⟩

/-- Every step answers a next state with the latches as they were: a fault writes none, and neither does an
instruction that completes. -/
theorem step_sameLatches (s : State) : ∃ t, step s = .next t ∧ SameLatches s t := by
  by_cases hrun : s.fault = none
  · obtain ⟨_, _, _, ht⟩ | ⟨_, _, t, -, -, -, ht, -, hframe⟩ := step_cases hrun
    · exact ⟨_, ht, rfl, rfl, rfl⟩
    · exact ⟨t, ht, (beginExecute_sameLatches s).trans hframe.sameLatches⟩
  · exact ⟨s, step_of_halted s hrun, .refl⟩

theorem stateAfter_stepWith_sameLatches (s : State) (r : Byte) : SameLatches s (stateAfter s (stepWith r s)) := by
  by_cases hrun : s.fault = none
  · obtain ⟨t, ht, hsame⟩ := step_sameLatches { s with random := r }
    rw [stepWith_of_running hrun, ht]
    exact ⟨hsame.shiftQuirk, hsame.loadStoreQuirk, hsame.font⟩
  · rw [stepWith_of_halted s hrun]
    exact .refl

theorem stateAfter_loadProgram_sameLatches (s : State) (bytes : List Byte) :
    SameLatches s (stateAfter s (loadProgram bytes s)) := by
  obtain ⟨-, h⟩ | ⟨-, -, h⟩ | ⟨-, -, h⟩ := stateAfter_loadProgram_cases s bytes <;> rw [h]
  · exact .refl
  · exact ⟨rfl, rfl, rfl⟩
  · exact ⟨rfl, rfl, rfl⟩

/-- Only `new` writes a latch (R105, R114). -/
theorem transact_sameLatches (c : Transaction) (s : State) (hnew : ∀ sq lq font, c ≠ .new sq lq font) :
    SameLatches s (transact c s).2 :=
  match c with
  | .new sq lq font => absurd rfl (hnew sq lq font)
  | .loadProgram bytes => stateAfter_loadProgram_sameLatches s bytes
  | .step r => stateAfter_stepWith_sameLatches s r
  | .tickTimers | .keyDown _ | .keyUp _ => ⟨rfl, rfl, rfl⟩
  | .readFramebuffer | .readDraw | .readSound | .readDelayTimer | .readFault => .refl

/-- A schedule without `new` keeps the latches, by induction on its transactions. -/
theorem runTransactions_sameLatches {ts : List Transaction} {s : State}
    (hnew : ∀ sq lq font, Transaction.new sq lq font ∉ ts) : SameLatches s (runTransactions ts s) := by
  induction ts generalizing s with
  | nil => exact .refl
  | cons c ts ih =>
    have hhead : SameLatches s (transact c s).2 := transact_sameLatches c s fun sq lq font hc =>
      hnew sq lq font (hc ▸ List.mem_cons_self)
    exact hhead.trans (ih fun sq lq font hmem => hnew sq lq font (List.mem_cons_of_mem c hmem))

end Latches

/-- Settles O50: the quirk bits are two of the latches. -/
theorem quirksAreFixedForTheRun : Obligations.QuirksAreFixedForTheRun := fun _ _ hnew =>
  have hsame := runTransactions_sameLatches hnew
  ⟨hsame.shiftQuirk, hsame.loadStoreQuirk⟩

/-- Settles O51: the font table is one of the latches. -/
theorem fontTableIsFixedForTheRun : Obligations.FontTableIsFixedForTheRun := fun _ _ hnew =>
  (runTransactions_sameLatches hnew).font

section Idle
variable {a : Addr} {s : State}

/-- Jumping to one's own address leaves only the draw signal of the start of the execute phase (R50, R116). -/
theorem jump_beginExecute_self (hpc : s.pc = zext16 a) : s.beginExecute.jump (zext16 a) = { s with draw := false } := by
  rw [← hpc]; rfl

theorem step_of_jp_self (hrun : s.fault = none) (hpc : s.pc = zext16 a) (hw : s.fetchWord = some (encode (.jp a))) :
    step s = .next { s with draw := false } := by
  rw [← jump_beginExecute_self hpc]
  exact step_of_decoded hrun hw (decodeWord_encode rfl)

/-- Idleness does not look at the draw signal. -/
theorem IdleAt.setDraw (h : IdleAt a s) (d : Bool) : IdleAt a { s with draw := d } := h

end Idle

/-- Settles O54: the word at the pc is that of JP to the pc itself. -/
theorem idleStaysIdle : Obligations.IdleStaysIdle := by
  rintro a s ⟨hrun, hpc, hw⟩
  exact ⟨step_of_jp_self hrun hpc hw, IdleAt.setDraw ⟨hrun, hpc, hw⟩ false⟩

end Sys2Proof.Machine
